-- ==== Sys2Proof/Word.lean ====
section
/-! DEFINITION. The widths of the hardware (spec/00_scope.md R5, R6, R7): every value is an unsigned bit vector. -/

namespace Sys2Proof

/-- One byte of memory, one general register, one timer (R5). -/
abbrev Byte := BitVec 8

/-- An opcode, and the registers I, PC and SP (R5). -/
abbrev Word := BitVec 16

/-- A register index: a 4-bit field X or Y of an opcode (R81). Every value names a register (R246). -/
abbrev RegIdx := BitVec 4

/-- The 4-bit field N: the number of rows of a sprite (R81). -/
abbrev Nibble := BitVec 4

/-- The 12-bit field NNN (R81). -/
abbrev Addr12 := BitVec 12

end Sys2Proof
end

