-- ==== Sys2Proof/Syntax.lean ====
section
/-! DEFINITION. The 34 instructions of spec/30_encoding.md R85, in the table's order, one constructor each. The
operands are the opcode's own fields at the widths of R81, so that no operand outside its field can be written. -/

namespace Sys2Proof

/-- An instruction with its fields. In `shr` and `shl` the field Y is part of the pattern and selects nothing (R87):
it is kept, so that a word and its instruction determine each other. DESIGN CHOICE, log 26. -/
inductive Instr where
  | cls                               -- 00E0
  | ret                               -- 00EE
  | jp (nnn : Addr12)                 -- 1NNN
  | call (nnn : Addr12)               -- 2NNN
  | seImm (x : RegIdx) (nn : Byte)    -- 3XNN
  | sneImm (x : RegIdx) (nn : Byte)   -- 4XNN
  | seReg (x y : RegIdx)              -- 5XY0
  | ldImm (x : RegIdx) (nn : Byte)    -- 6XNN
  | addImm (x : RegIdx) (nn : Byte)   -- 7XNN
  | ldReg (x y : RegIdx)              -- 8XY0
  | orReg (x y : RegIdx)              -- 8XY1
  | andReg (x y : RegIdx)             -- 8XY2
  | xorReg (x y : RegIdx)             -- 8XY3
  | addReg (x y : RegIdx)             -- 8XY4
  | subReg (x y : RegIdx)             -- 8XY5
  | shr (x y : RegIdx)                -- 8XY6
  | subnReg (x y : RegIdx)            -- 8XY7
  | shl (x y : RegIdx)                -- 8XYE
  | sneReg (x y : RegIdx)             -- 9XY0
  | ldI (nnn : Addr12)                -- ANNN
  | jpV0 (nnn : Addr12)               -- BNNN
  | rnd (x : RegIdx) (nn : Byte)      -- CXNN
  | drw (x y : RegIdx) (n : Nibble)   -- DXYN
  | skp (x : RegIdx)                  -- EX9E
  | sknp (x : RegIdx)                 -- EXA1
  | ldVxDt (x : RegIdx)               -- FX07
  | ldVxK (x : RegIdx)                -- FX0A
  | ldDtVx (x : RegIdx)               -- FX15
  | ldStVx (x : RegIdx)               -- FX18
  | addI (x : RegIdx)                 -- FX1E
  | ldF (x : RegIdx)                  -- FX29
  | ldB (x : RegIdx)                  -- FX33
  | stRegs (x : RegIdx)               -- FX55
  | ldRegs (x : RegIdx)               -- FX65
  deriving DecidableEq, Repr

end Sys2Proof
end

