-- ==== Sys2Proof/WellFormed.lean ====
section
/-! DEFINITION. The opcode map of spec/30_encoding.md R85 as data, and the checks: an operand fits its field (R81,
R83), a word is one of the hardware's instructions (R85, R86), a program image fits the program space (R282). -/

namespace Sys2Proof

/-- One row of the opcode map: the row selects the words `w` with `w &&& mask = pattern` (R82). -/
structure OpcodeRow where
  pattern : Word
  mask    : Word
  deriving DecidableEq, Repr

/-- The row selects the word (R82, "An instruction is selected when `(op & mask) == match`"). -/
def OpcodeRow.selects (r : OpcodeRow) (w : Word) : Bool := w &&& r.mask == r.pattern

/-- The row of the opcode map (R85) an instruction belongs to. -/
def rowOf : Instr → OpcodeRow
  | .cls         => ⟨0x00E0, 0xFFFF⟩
  | .ret         => ⟨0x00EE, 0xFFFF⟩
  | .jp _        => ⟨0x1000, 0xF000⟩
  | .call _      => ⟨0x2000, 0xF000⟩
  | .seImm _ _   => ⟨0x3000, 0xF000⟩
  | .sneImm _ _  => ⟨0x4000, 0xF000⟩
  | .seReg _ _   => ⟨0x5000, 0xF00F⟩
  | .ldImm _ _   => ⟨0x6000, 0xF000⟩
  | .addImm _ _  => ⟨0x7000, 0xF000⟩
  | .ldReg _ _   => ⟨0x8000, 0xF00F⟩
  | .orReg _ _   => ⟨0x8001, 0xF00F⟩
  | .andReg _ _  => ⟨0x8002, 0xF00F⟩
  | .xorReg _ _  => ⟨0x8003, 0xF00F⟩
  | .addReg _ _  => ⟨0x8004, 0xF00F⟩
  | .subReg _ _  => ⟨0x8005, 0xF00F⟩
  | .shr _ _     => ⟨0x8006, 0xF00F⟩
  | .subnReg _ _ => ⟨0x8007, 0xF00F⟩
  | .shl _ _     => ⟨0x800E, 0xF00F⟩
  | .sneReg _ _  => ⟨0x9000, 0xF00F⟩
  | .ldI _       => ⟨0xA000, 0xF000⟩
  | .jpV0 _      => ⟨0xB000, 0xF000⟩
  | .rnd _ _     => ⟨0xC000, 0xF000⟩
  | .drw _ _ _   => ⟨0xD000, 0xF000⟩
  | .skp _       => ⟨0xE09E, 0xF0FF⟩
  | .sknp _      => ⟨0xE0A1, 0xF0FF⟩
  | .ldVxDt _    => ⟨0xF007, 0xF0FF⟩
  | .ldVxK _     => ⟨0xF00A, 0xF0FF⟩
  | .ldDtVx _    => ⟨0xF015, 0xF0FF⟩
  | .ldStVx _    => ⟨0xF018, 0xF0FF⟩
  | .addI _      => ⟨0xF01E, 0xF0FF⟩
  | .ldF _       => ⟨0xF029, 0xF0FF⟩
  | .ldB _       => ⟨0xF033, 0xF0FF⟩
  | .stRegs _    => ⟨0xF055, 0xF0FF⟩
  | .ldRegs _    => ⟨0xF065, 0xF0FF⟩

/-- One instruction of each row, in the table's order: the operands are of no consequence. -/
def instrOfEachRow : List Instr :=
  [.cls, .ret, .jp 0, .call 0, .seImm 0 0, .sneImm 0 0, .seReg 0 0, .ldImm 0 0, .addImm 0 0] ++
  [.ldReg 0 0, .orReg 0 0, .andReg 0 0, .xorReg 0 0, .addReg 0 0, .subReg 0 0, .shr 0 0, .subnReg 0 0, .shl 0 0] ++
  [.sneReg 0 0, .ldI 0, .jpV0 0, .rnd 0 0, .drw 0 0 0, .skp 0, .sknp 0] ++
  [.ldVxDt 0, .ldVxK 0, .ldDtVx 0, .ldStVx 0, .addI 0, .ldF 0, .ldB 0, .stRegs 0, .ldRegs 0]

/-- The 34 rows of the opcode map (R85). -/
def opcodeRows : List OpcodeRow := instrOfEachRow.map rowOf

/-- The word is one of the 34 instructions (R85); every other word is an unknown opcode (R86). -/
def wellFormedWord (w : Word) : Bool := opcodeRows.any (·.selects w)

/-- A field of an opcode, `op[hi:lo]`, with the number it holds (R81). -/
structure Field where
  hi    : Nat
  lo    : Nat
  value : Nat
  deriving DecidableEq, Repr

/-- The number is one the field's bits can hold (R81, R83). -/
def Field.fits (f : Field) : Bool := decide (f.value < 2 ^ (f.hi - f.lo + 1))

/-- The field X, `op[11:8]` (R81). -/
def xField (x : RegIdx) : Field := ⟨11, 8, x.toNat⟩

/-- The field Y, `op[7:4]` (R81). -/
def yField (y : RegIdx) : Field := ⟨7, 4, y.toNat⟩

/-- The field N, `op[3:0]` (R81). -/
def nField (n : Nibble) : Field := ⟨3, 0, n.toNat⟩

/-- The field NN, `op[7:0]` (R81). -/
def nnField (nn : Byte) : Field := ⟨7, 0, nn.toNat⟩

/-- The field NNN, `op[11:0]` (R81). -/
def nnnField (nnn : Addr12) : Field := ⟨11, 0, nnn.toNat⟩

/-- The fields of an instruction (the column "fields" of R85). -/
def fieldsOf : Instr → List Field
  | .cls | .ret => []
  | .jp nnn | .call nnn | .ldI nnn | .jpV0 nnn => [nnnField nnn]
  | .seImm x nn | .sneImm x nn | .ldImm x nn | .addImm x nn | .rnd x nn => [xField x, nnField nn]
  | .seReg x y | .ldReg x y | .orReg x y | .andReg x y | .xorReg x y | .addReg x y | .subReg x y
  | .shr x y | .subnReg x y | .shl x y | .sneReg x y => [xField x, yField y]
  | .drw x y n => [xField x, yField y, nField n]
  | .skp x | .sknp x | .ldVxDt x | .ldVxK x | .ldDtVx x | .ldStVx x | .addI x | .ldF x | .ldB x
  | .stRegs x | .ldRegs x => [xField x]

/-- Every operand of the instruction fits its field (R81, R83). The operand types have exactly these widths, so every
`Instr` passes (`Sys2Proof.Laws.wellFormed_all`); the check says so about the numbers. -/
def Instr.wellFormed (i : Instr) : Bool := (fieldsOf i).all Field.fits

/-- ROM_MAX, the largest program image: 0xE9F - 0x200 + 1 bytes (R5, R282). -/
def romMax : Nat := 0xE9F - 0x200 + 1

/-- The program image fits between 0x200 and 0xE9F (R282). -/
def romFits (rom : List Byte) : Bool := decide (rom.length ≤ romMax)

end Sys2Proof
end

