-- ==== Sys2Proof/Decode.lean ====
section
/-! DEFINITION. The decoder of spec/30_encoding.md R92, total on every word and on every list of bytes, and after it the
encoder of R93. The two are written from the spec's two tables (R92; R82 with R85), neither from the other. -/

namespace Sys2Proof

/-- Why bytes are no instruction. -/
inductive DecodeError where
  | unknown (op : Word)   -- the word is none of the 34 instructions (R86, R92 `Unknown(op)`)
  | truncated             -- fewer than the two bytes an instruction has (R80)
  deriving DecidableEq, Repr

/-- The opcode from its two bytes, the byte at PC first: `op = hi ++ lo` (R56, R80). -/
def wordOfBytes (hi lo : Byte) : Word := hi ++ lo

/-- The byte stored at the lower address: `op[15:8]` (R56). -/
def hiByte (w : Word) : Byte := w.extractLsb' 8 8

/-- The byte stored at the higher address: `op[7:0]` (R56). -/
def loByte (w : Word) : Byte := w.extractLsb' 0 8

/-- The class C, `op[15:12]` (R81). -/
def opC (op : Word) : Nibble := op.extractLsb' 12 4

/-- The field X, `op[11:8]` (R81). -/
def opX (op : Word) : RegIdx := op.extractLsb' 8 4

/-- The field Y, `op[7:4]` (R81). -/
def opY (op : Word) : RegIdx := op.extractLsb' 4 4

/-- The field N, `op[3:0]` (R81). -/
def opN (op : Word) : Nibble := op.extractLsb' 0 4

/-- The field NN, `op[7:0]` (R81). -/
def opNN (op : Word) : Byte := op.extractLsb' 0 8

/-- The field NNN, `op[11:0]` (R81). -/
def opNNN (op : Word) : Addr12 := op.extractLsb' 0 12

/-- Class 0: the whole word is matched (R84). -/
def decodeClass0 (op : Word) : Except DecodeError Instr :=
  if op = 0x00E0 then .ok .cls
  else if op = 0x00EE then .ok .ret
  else .error (.unknown op)

/-- Class 8: dispatch on `op[3:0]` (R84, R92). -/
def decodeClass8 (op : Word) : Except DecodeError Instr :=
  match opN op with
  | 0x0#4 => .ok (.ldReg (opX op) (opY op))
  | 0x1#4 => .ok (.orReg (opX op) (opY op))
  | 0x2#4 => .ok (.andReg (opX op) (opY op))
  | 0x3#4 => .ok (.xorReg (opX op) (opY op))
  | 0x4#4 => .ok (.addReg (opX op) (opY op))
  | 0x5#4 => .ok (.subReg (opX op) (opY op))
  | 0x6#4 => .ok (.shr (opX op) (opY op))
  | 0x7#4 => .ok (.subnReg (opX op) (opY op))
  | 0xE#4 => .ok (.shl (opX op) (opY op))
  | _     => .error (.unknown op)

/-- Class E: dispatch on `op[7:0]` (R84, R92). -/
def decodeClassE (op : Word) : Except DecodeError Instr :=
  if opNN op = 0x9E then .ok (.skp (opX op))
  else if opNN op = 0xA1 then .ok (.sknp (opX op))
  else .error (.unknown op)

/-- Class F: dispatch on `op[7:0]` (R84, R92). -/
def decodeClassF (op : Word) : Except DecodeError Instr :=
  if opNN op = 0x07 then .ok (.ldVxDt (opX op))
  else if opNN op = 0x0A then .ok (.ldVxK (opX op))
  else if opNN op = 0x15 then .ok (.ldDtVx (opX op))
  else if opNN op = 0x18 then .ok (.ldStVx (opX op))
  else if opNN op = 0x1E then .ok (.addI (opX op))
  else if opNN op = 0x29 then .ok (.ldF (opX op))
  else if opNN op = 0x33 then .ok (.ldB (opX op))
  else if opNN op = 0x55 then .ok (.stRegs (opX op))
  else if opNN op = 0x65 then .ok (.ldRegs (opX op))
  else .error (.unknown op)

/-- The decoder: dispatch on the high nibble, then within the class (R84, R92). -/
def decode (op : Word) : Except DecodeError Instr :=
  match opC op with
  | 0x0#4 => decodeClass0 op
  | 0x1#4 => .ok (.jp (opNNN op))
  | 0x2#4 => .ok (.call (opNNN op))
  | 0x3#4 => .ok (.seImm (opX op) (opNN op))
  | 0x4#4 => .ok (.sneImm (opX op) (opNN op))
  | 0x5#4 => if opN op = 0 then .ok (.seReg (opX op) (opY op)) else .error (.unknown op)
  | 0x6#4 => .ok (.ldImm (opX op) (opNN op))
  | 0x7#4 => .ok (.addImm (opX op) (opNN op))
  | 0x8#4 => decodeClass8 op
  | 0x9#4 => if opN op = 0 then .ok (.sneReg (opX op) (opY op)) else .error (.unknown op)
  | 0xA#4 => .ok (.ldI (opNNN op))
  | 0xB#4 => .ok (.jpV0 (opNNN op))
  | 0xC#4 => .ok (.rnd (opX op) (opNN op))
  | 0xD#4 => .ok (.drw (opX op) (opY op) (opN op))
  | 0xE#4 => decodeClassE op
  | _     => decodeClassF op

/-- Decoding a byte stream: one instruction and the bytes after it (R80, R91). -/
def decodeBytes : List Byte → Except DecodeError (Instr × List Byte)
  | hi :: lo :: rest =>
    match decode (wordOfBytes hi lo) with
    | .ok i    => .ok (i, rest)
    | .error e => .error e
  | _ => .error .truncated

/-- The bytes of a word as memory holds them, the high byte at the lower address (R56, R93). -/
def bytesOfWord (w : Word) : List Byte := [hiByte w, loByte w]

/-- The word of a row's `nbits` bits numbered as the opcode table numbers them; the bits above are 0. Every instruction
has one word (R80). -/
def tableWord (nbits w : Nat) : Word := BitVec.ofNat 16 (w % 2 ^ nbits)

/-- The instruction the decoder reads from a row's bits laid out as memory holds them. -/
def decodeTableWord (nbits w : Nat) : Option Instr :=
  match decodeBytes (bytesOfWord (tableWord nbits w)) with
  | .ok (i, _) => some i
  | .error _   => none

/-- Format NNN: `match | NNN` (R82, R93). -/
def encNNN (pattern : Word) (nnn : Addr12) : Word := pattern ||| nnn.setWidth 16

/-- Format XNN: `match | (X << 8) | NN` (R82, R93). -/
def encXNN (pattern : Word) (x : RegIdx) (nn : Byte) : Word :=
  pattern ||| (x.setWidth 16 <<< 8) ||| nn.setWidth 16

/-- Format XFF: `match | (X << 8)` (R82, R93). -/
def encX (pattern : Word) (x : RegIdx) : Word := pattern ||| (x.setWidth 16 <<< 8)

/-- Formats XYF and XYN: `match | (X << 8) | (Y << 4) | N` (R82, R93). -/
def encXYN (pattern : Word) (x y : RegIdx) (n : Nibble) : Word :=
  pattern ||| (x.setWidth 16 <<< 8) ||| (y.setWidth 16 <<< 4) ||| n.setWidth 16

/-- The encoder (R93): the match value of the instruction's row with its fields filled in. The field Y of `shr` and
`shl` is encoded as it stands ("any Y may be encoded"). -/
def encode : Instr → Word
  | .cls         => 0x00E0
  | .ret         => 0x00EE
  | .jp nnn      => encNNN 0x1000 nnn
  | .call nnn    => encNNN 0x2000 nnn
  | .seImm x nn  => encXNN 0x3000 x nn
  | .sneImm x nn => encXNN 0x4000 x nn
  | .seReg x y   => encXYN 0x5000 x y 0
  | .ldImm x nn  => encXNN 0x6000 x nn
  | .addImm x nn => encXNN 0x7000 x nn
  | .ldReg x y   => encXYN 0x8000 x y 0
  | .orReg x y   => encXYN 0x8001 x y 0
  | .andReg x y  => encXYN 0x8002 x y 0
  | .xorReg x y  => encXYN 0x8003 x y 0
  | .addReg x y  => encXYN 0x8004 x y 0
  | .subReg x y  => encXYN 0x8005 x y 0
  | .shr x y     => encXYN 0x8006 x y 0
  | .subnReg x y => encXYN 0x8007 x y 0
  | .shl x y     => encXYN 0x800E x y 0
  | .sneReg x y  => encXYN 0x9000 x y 0
  | .ldI nnn     => encNNN 0xA000 nnn
  | .jpV0 nnn    => encNNN 0xB000 nnn
  | .rnd x nn    => encXNN 0xC000 x nn
  | .drw x y n   => encXYN 0xD000 x y n
  | .skp x       => encX 0xE09E x
  | .sknp x      => encX 0xE0A1 x
  | .ldVxDt x    => encX 0xF007 x
  | .ldVxK x     => encX 0xF00A x
  | .ldDtVx x    => encX 0xF015 x
  | .ldStVx x    => encX 0xF018 x
  | .addI x      => encX 0xF01E x
  | .ldF x       => encX 0xF029 x
  | .ldB x       => encX 0xF033 x
  | .stRegs x    => encX 0xF055 x
  | .ldRegs x    => encX 0xF065 x

/-- The program image of a list of instructions, high byte first (R91, R93). -/
def encodeProgram (is : List Instr) : List Byte := is.flatMap fun i => bytesOfWord (encode i)

end Sys2Proof
end

