-- ==== Sys2Proof/Config.lean ====
section
/-! DEFINITION. What is fixed for a machine (the parameters FONT of spec/00_scope.md R5, EDGE and DRIVER_POLICY of
spec/93_implementation_defined.md), what the driver gives a step, and the free values. The reset values are parameters of
initialisation (Machine/Init.lean). -/

namespace Sys2Proof

/-- EDGE of 93_implementation_defined.md U1: what happens to a sprite pixel outside the 64 by 32 framebuffer.
`clip` is the rule R201 follows (decision D10). -/
inductive EdgeMode where
  | clip
  | wrap
  deriving DecidableEq, Repr

/-- DRIVER_POLICY of 93_implementation_defined.md U9: what the driver does when a step returns an error
(R120, "the driver decides policy (halt, log-and-skip, etc.)"). -/
inductive DriverPolicy where
  | halt
  | logAndSkip
  deriving DecidableEq, Repr

/-- The configuration of one machine. No event changes it. -/
structure Config where
  font   : Vector Byte 80     -- FONT, the 80 bytes `load_font` copies (R5, R62, U14; log 4)
  edge   : EdgeMode           -- EDGE (U1; log 11)
  policy : DriverPolicy       -- DRIVER_POLICY (U9; log 8)
  deriving DecidableEq, Repr

/-- What the driver delivers for one step of the model: the ticks that fall between the step before and this one
(R254), then the step's key snapshot and random byte (R29). DESIGN CHOICE, log 6 and 7. -/
structure DriverInput where
  ticks : Nat
  keys  : BitVec 16
  rnd   : Byte
  deriving DecidableEq, Repr

/-- FREE VALUE (log 7): how many ticks the driver delivers before the step numbered so, where no input is given.
The hardware fixes no number (R254, D21). -/
opaque Config.freeTicks : Nat → Nat

/-- FREE VALUE (log 6): the key snapshot of the step numbered so, where no input is given (R29). -/
opaque Config.freeKeys : Nat → BitVec 16

/-- FREE VALUE (log 6): `random_byte()` in the step numbered so, where no input is given (R29, D15). -/
opaque Config.freeRnd : Nat → Byte

end Sys2Proof
end

