-- ==== Sys2Proof/Machine/ResetValues.lean ====
section
/-! DEFINITION. The values the machine starts with: the font's default (spec/20_memory.md R62), the fixed places of the memory map
(R51), and the values this model names where the spec gives none (spec/10_state.md R33, R34). -/

namespace Sys2Proof.Machine

/-- MEM_SIZE: addresses 0x000 to 0xFFF (R5, R50). -/
def memSize : Nat := 0x1000

/-- PROG_BASE, the entry point and the address a program image is loaded at (R5, R51). -/
def progBase : Nat := 0x200

/-- STACK_BASE: the first stack entry, and SP with an empty stack (R5, R57). -/
def stackBase : Word := 0xEA0

/-- STACK_LIMIT: SP with 16 entries on the stack (R5). -/
def stackLimit : Word := 0xEC0

/-- FB_BASE: the first of the 256 framebuffer bytes (R5, R51). -/
def fbBase : Nat := 0xF00

/-- FB_SIZE (R5). -/
def fbSize : Nat := 256

/-- FONT_SIZE: 16 glyphs of 5 bytes (R5). -/
def fontSize : Nat := 80

/-- The value R62's table gives the parameter FONT, glyph by glyph. PRESUMED, log 4: the spec takes the bytes from general
knowledge. -/
def defaultFontBytes : List Byte :=
  [0xF0, 0x90, 0x90, 0x90, 0xF0,  0x20, 0x60, 0x20, 0x20, 0x70] ++   -- 0, 1
  [0xF0, 0x10, 0xF0, 0x80, 0xF0,  0xF0, 0x10, 0xF0, 0x10, 0xF0] ++   -- 2, 3
  [0x90, 0x90, 0xF0, 0x10, 0x10,  0xF0, 0x80, 0xF0, 0x10, 0xF0] ++   -- 4, 5
  [0xF0, 0x80, 0xF0, 0x90, 0xF0,  0xF0, 0x10, 0x20, 0x40, 0x40] ++   -- 6, 7
  [0xF0, 0x90, 0xF0, 0x90, 0xF0,  0xF0, 0x90, 0xF0, 0x10, 0xF0] ++   -- 8, 9
  [0xF0, 0x90, 0xF0, 0x90, 0x90,  0xE0, 0x90, 0xE0, 0x90, 0xE0] ++   -- A, B
  [0xF0, 0x80, 0x80, 0x80, 0xF0,  0xE0, 0x90, 0x90, 0x90, 0xE0] ++   -- C, D
  [0xF0, 0x80, 0xF0, 0x80, 0xF0,  0xF0, 0x80, 0xF0, 0x80, 0x80]      -- E, F

/-- The default of FONT (R5, R62). PRESUMED, log 4. -/
def defaultFont : Vector Byte 80 := ⟨defaultFontBytes.toArray, rfl⟩

/-- What a byte of memory that nothing has written reads as: the default font at 0x000 to 0x04F (R34, R62); elsewhere 0,
where the spec gives no value (RESET_MEM). A machine with another font lists the bytes that differ. DESIGN CHOICE, log 3. -/
def unlistedByte (a : Nat) : Byte := defaultFontBytes.getD a 0

/-- RESET_V (R33 gives none). DESIGN CHOICE, log 1. -/
def resetV : Vector Byte 16 := Vector.replicate 16 0

/-- RESET_I (R33 gives none). DESIGN CHOICE, log 2. -/
def resetI : Word := 0

/-- WAIT.reg after initialisation: "unspecified, irrelevant while WAIT.valid = 0" (R33). DESIGN CHOICE, log 5. -/
def resetWaitReg : RegIdx := 0

/-- The configuration `State.reset` carries: the default font, R201's clip, and a driver that goes on after an error.
DESIGN CHOICE, log 8 and 11; the font PRESUMED, log 4. -/
def resetCfg : Config := { font := defaultFont, edge := .clip, policy := .logAndSkip }

end Sys2Proof.Machine
end

