-- ==== Sys2Proof/Machine/State.lean ====
section
/-! DEFINITION. The machine's state as plain data: the spec's state (spec/10_state.md R31), and the fields that carry
what crosses the core's boundary, since a step of the model takes only a state. -/

namespace Sys2Proof.Machine

/-- The five error kinds (60_exceptions.md R240). Each is raised through `raise` (or by `loadRom`). As a fault each is
SAFE: it stops the run where a driver of the other policy would go on (log 8). -/
inductive Fault where
  /-- The fetched word is none of the 34 instructions (R241). Raised by `step` at dispatch. Safe. -/
  | unknownOpcode (code : Word)
  /-- A byte access above 0xFFF (R242). Raised by the fetch, FX33, FX55, FX65 and DXYN. Safe. -/
  | outOfBounds (address : Nat)
  /-- A push with 16 entries on the stack (R243). Raised by 2NNN. Safe. -/
  | stackOverflow
  /-- A pop with the stack empty (R244). Raised by 00EE. Safe. -/
  | stackUnderflow
  /-- A program image longer than 3232 bytes (R245). Raised by `loadRom`, never by `step`. Safe. -/
  | romTooLarge
  deriving DecidableEq, Repr

/-- Why an instruction has no meaning. -/
inductive Refusal where
  /-- The arm of `exec` is not written yet. Raised by no arm of this model. Safe. -/
  | notModelled (mnemonic : String)
  deriving DecidableEq, Repr

/-- What a step returns to the driver (40_step_cycle.md R117, R118). An output: nothing reads it. DESIGN CHOICE, log 9. -/
inductive StepResult where
  | notStepped                                 -- no step has returned yet
  | sideEffects (drew awaitingKey : Bool)      -- R117
  | error (e : Fault)                          -- R118
  deriving DecidableEq, Repr

/-- Memory: the bytes that differ from what an unlisted address reads as, by rising address (`Memory.wf`). -/
abbrev Memory := List Host.Cell

/-- The state. The first nine fields are the spec's (R31, where R30 says there is no other); the rest are the model's. -/
structure State where
  v         : Vector Byte 16     -- V0 to VF (R20, R21)
  i         : Word               -- I (R22)
  pc        : Word               -- PC (R23)
  dt        : Byte               -- DT (R24)
  st        : Byte               -- ST (R25)
  sp        : Word               -- SP (R26)
  waitValid : Bool               -- WAIT.valid (R27)
  waitReg   : RegIdx             -- WAIT.reg (R27)
  mem       : Memory             -- MEM (R28)
  keys      : BitVec 16          -- input: the key snapshot of the step in progress (R29; log 6)
  rnd       : Byte               -- input: the random byte of the step in progress (R29; log 6)
  inputs    : List DriverInput   -- inputs still to be delivered, oldest first (R110; log 6, 7)
  drawn     : Nat                -- how many inputs have been delivered (log 6)
  result    : StepResult         -- output: what the last step returned (R117, R118; log 9)
  cfg       : Config             -- FONT, EDGE and DRIVER_POLICY (R5, U1, U9; log 4, 8, 11)
  deriving DecidableEq, Repr

/-- The machine right after initialisation with an empty program image (R33, R34, R280; log 1 to 11). -/
def State.reset : State where
  v         := resetV
  i         := resetI
  pc        := 0x200
  dt        := 0
  st        := 0
  sp        := 0xEA0
  waitValid := false
  waitReg   := resetWaitReg
  mem       := []
  keys      := 0
  rnd       := 0
  inputs    := []
  drawn     := 0
  result    := .notStepped
  cfg       := resetCfg

/-- The answer of a step, of an instruction, and of loading a program. -/
abbrev Answer := Host.Outcome State Fault Refusal

end Sys2Proof.Machine
end

