-- ==== Sys2Proof/Machine/Ops.lean ====
section
/-! DEFINITION. The named operations: registers, checked memory accesses, how a step ends (with its result, or by
raising an error), the call stack, the timers, the driver's inputs, and the core's outputs. -/

namespace Sys2Proof.Machine

/-! ### Registers (spec/00_scope.md R8) -/

/-- `V[j]` (R8). -/
def State.reg (s : State) (j : RegIdx) : Byte := s.v[j.toNat]'j.isLt

/-- `V[j] <- b` (R8). -/
def State.setReg (s : State) (j : RegIdx) (b : Byte) : State := { s with v := s.v.set j.toNat b j.isLt }

/-- `I <- w` (R8). -/
def State.setI (s : State) (w : Word) : State := { s with i := w }

/-- `PC <- w` (R8). -/
def State.setPc (s : State) (w : Word) : State := { s with pc := w }

/-- `SP <- w` (R8). -/
def State.setSp (s : State) (w : Word) : State := { s with sp := w }

/-- `DT <- b` (R8). -/
def State.setDt (s : State) (b : Byte) : State := { s with dt := b }

/-- `ST <- b` (R8). -/
def State.setSt (s : State) (b : Byte) : State := { s with st := b }

/-- Both parts of the wait latch (R27). -/
def State.setWait (s : State) (valid : Bool) (reg : RegIdx) : State := { s with waitValid := valid, waitReg := reg }

/-- `MEM <- m`. -/
def State.setMem (s : State) (m : Memory) : State := { s with mem := m }

/-- What the step returns to the driver (R117, R118). -/
def State.setResult (s : State) (r : StepResult) : State := { s with result := r }

/-! ### Sub-steps (spec/40_step_cycle.md R118)

A sequence of sub-steps either is done, or fails at one of them: the effects of those before it stay. -/

/-- What a sequence of sub-steps leaves: the value it read and the state, or the error and the state at the failing
sub-step. -/
inductive Progress (α : Type) where
  | done (a : α) (s : State)
  | failed (e : Fault) (s : State)

/-- One sequence of sub-steps after another: the second is not performed where the first fails (R118). -/
def Progress.andThen {α β : Type} (p : Progress α) (f : α → State → Progress β) : Progress β :=
  match p with
  | .done a s   => f a s
  | .failed e s => .failed e s

/-- `MemRead(a, 1)`: the address is unbounded and is never reduced (R9, R53, R55). -/
def memRead (a : Nat) (s : State) : Progress Byte :=
  if a ≤ 0xFFF then .done (Memory.read s.mem a) s else .failed (.outOfBounds a) s

/-- `MemWrite(a, 1, b)` (R9, R53, R55). -/
def memWrite (a : Nat) (b : Byte) (s : State) : Progress Unit :=
  if a ≤ 0xFFF then .done () (s.setMem (Memory.write s.mem a b)) else .failed (.outOfBounds a) s

/-- `MemRead(a, 2)`: two byte reads, the high byte at the lower address first (R54). -/
def memReadWord (a : Nat) (s : State) : Progress Word :=
  (memRead a s).andThen fun hi s => (memRead (a + 1) s).andThen fun lo s => .done (wordOfBytes hi lo) s

/-- `MemWrite(a, 2, w)`: two byte writes, the high byte at the lower address first (R54). -/
def memWriteWord (a : Nat) (w : Word) (s : State) : Progress Unit :=
  (memWrite a (hiByte w) s).andThen fun _ s => memWrite (a + 1) (loByte w) s

/-- Byte writes at rising addresses, each with its own check (R53, R54, R184). -/
def storeBytes : Nat → List Byte → State → Progress Unit
  | _, [], s => .done () s
  | a, b :: bs, s => (memWrite a b s).andThen fun _ s => storeBytes (a + 1) bs s

/-- Byte reads at rising addresses, each with its own check, into the registers of the list (R53, R54, R185). -/
def loadBytes : Nat → List RegIdx → State → Progress Unit
  | _, [], s => .done () s
  | a, j :: js, s => (memRead a s).andThen fun b s => loadBytes (a + 1) js (s.setReg j b)

/-! ### How a step ends -/

/-- A step that raises no error returns SideEffects: whether it executed a drawing instruction, and WAIT.valid at its
end (R117). -/
def complete (drew : Bool) (s : State) : Answer := .next (s.setResult (.sideEffects drew s.waitValid))

/-- TAKING AN ERROR, the one operation through which every error of a step is raised (R10, R118, R247, R250). The state
is the one the failing sub-step left, nothing is saved and no mode changes; the step returns the error. Whether the
driver then stops the run or goes on from that state is its policy (R120, U9; log 8). There is no return from an error
(R250): the next step simply runs from the state left. -/
def raise (e : Fault) (s : State) : Answer :=
  match s.cfg.policy with
  | .logAndSkip => .next (s.setResult (.error e))
  | .halt       => .fault e

/-- The end of an instruction whose sub-steps may fail. -/
def finish (drew : Bool) (p : Progress Unit) : Answer :=
  match p with
  | .done _ s   => complete drew s
  | .failed e s => raise e s

/-- The number of an error kind (R240, decision D19). -/
def Fault.number : Fault → Nat
  | .unknownOpcode _ => 1
  | .outOfBounds _   => 2
  | .stackOverflow   => 3
  | .stackUnderflow  => 4
  | .romTooLarge     => 5

/-- The error number a result shows; 0 means no error (R240). -/
def StepResult.errorNumber : StepResult → Nat
  | .error e => e.number
  | _        => 0

/-! ### The program counter (spec/40_step_cycle.md R113, R114; spec/41_control_flow.md R136) -/

/-- The fetch: the byte at PC, then the byte at PC + 1, each with its own check; PC is not advanced where one fails
(R113). -/
def fetch (s : State) : Progress Word := memReadWord s.pc.toNat s

/-- The PC advance after a successful fetch, modulo 65536 (R114). -/
def advance (s : State) : State := s.setPc (s.pc + 2)

/-- `skip()`: a further 2 (R136). -/
def skip (s : State) : State := s.setPc (s.pc + 2)

/-- A skip instruction whose condition is `c`. -/
def skipIf (c : Bool) (s : State) : State := if c then skip s else s

/-! ### The call stack (spec/41_control_flow.md R130, R131) -/

/-- `push(w)`: the check, the two byte writes at SP, then SP + 2 (R130). -/
def push (w : Word) (s : State) : Progress Unit :=
  if s.sp = stackLimit then .failed .stackOverflow s
  else (memWriteWord s.sp.toNat w s).andThen fun _ s => .done () (s.setSp (s.sp + 2))

/-- `pop()`: the check, SP - 2, then the two byte reads at the new SP (R131). -/
def pop (s : State) : Progress Word :=
  if s.sp = stackBase then .failed .stackUnderflow s
  else
    let s := s.setSp (s.sp - 2)
    memReadWord s.sp.toNat s

/-! ### The timers (spec/60_exceptions.md R253, R254) -/

/-- One timer under one tick: down by 1, floored at 0. -/
def countDown (t : Byte) : Byte := if t = 0 then 0 else t - 1

/-- The tick event (R253). -/
def tick (s : State) : State := { s with dt := countDown s.dt, st := countDown s.st }

/-- One timer under `n` ticks. -/
def countDownBy (n : Nat) (t : Byte) : Byte := if t = 0 then 0 else BitVec.ofNat 8 (t.toNat - n)

/-- `n` tick events, at once: the same as `tick` repeated `n` times (`Sys2Proof.Laws.countDownBy_succ`). -/
def ticks (n : Nat) (s : State) : State := { s with dt := countDownBy n s.dt, st := countDownBy n s.st }

/-! ### The driver's inputs (spec/40_step_cycle.md R110, spec/10_state.md R29; log 6, 7) -/

/-- The next input: the oldest one waiting, else free values. -/
def nextInput (s : State) : DriverInput :=
  match s.inputs with
  | input :: _ => input
  | []         => ⟨Config.freeTicks s.drawn, Config.freeKeys s.drawn, Config.freeRnd s.drawn⟩

/-- The driver delivers its next input: the ticks, then the snapshot and the random byte of the step. -/
def deliver (s : State) : State :=
  { ticks (nextInput s).ticks s with
    keys   := (nextInput s).keys
    rnd    := (nextInput s).rnd
    inputs := s.inputs.tail
    drawn  := s.drawn + 1 }

/-- "The first pressed key": the least index with `keys[k] = 1` (R220), if a key is down at all. -/
def firstKey (keys : BitVec 16) : Option Nat := (List.range 16).find? fun k => keys.getLsbD k

/-- The wait step (R116): the least key down goes to `V[WAIT.reg]` and ends the wait; with no key down nothing changes. -/
def waitStep (s : State) : Answer :=
  complete false
    (match firstKey s.keys with
     | some k => (s.setReg s.waitReg (BitVec.ofNat 8 k)).setWait false s.waitReg
     | none   => s)

/-! ### The core's outputs -/

/-- `framebuffer_bytes()`: the 256 bytes the renderer reads between steps (20_memory.md R66). -/
def framebufferBytes (s : State) : List Byte := (List.range fbSize).map fun j => Memory.read s.mem (fbBase + j)

/-- `sound_active`: ST is not 0 (60_exceptions.md R256, decision D22). -/
def soundActive (s : State) : Bool := s.st ≠ 0

end Sys2Proof.Machine
end

