-- ==== Sys2Proof/Machine/Operands.lean ====
section
/-! DEFINITION. The operand forms (spec/30_encoding.md R83; spec/43_index_memory.md R186; spec/45_keys_timers.md R220):
immediates, the register range of FX55 and FX65, the addresses I gives, the decimal digits, the selected key. -/

namespace Sys2Proof.Machine

/-- The operand NNN: `zext_16(op[11:0])` (R83). -/
def zextAddr (nnn : Addr12) : Word := nnn.setWidth 16

/-- The registers V0 to VX, ascending: X + 1 of them (R184, R185). -/
def regsUpTo (x : RegIdx) : List RegIdx := (List.range (x.toNat + 1)).map (BitVec.ofNat 4)

/-- The base of every data access: the full 16 bits of I, to which offsets are added unreduced (R55, R186). -/
def indexBase (s : State) : Nat := s.i.toNat

/-- The decimal digits of a byte: hundreds, tens, ones (R183). -/
def decimalDigits (a : Byte) : List Byte :=
  [BitVec.ofNat 8 (a.toNat / 100), BitVec.ofNat 8 (a.toNat / 10 % 10), BitVec.ofNat 8 (a.toNat % 10)]

/-- The glyph address of FX29: the value times 5, exact in 16 bits (R182). -/
def glyphAddress (a : Byte) : Word := BitVec.ofNat 16 (a.toNat * 5)

/-- Whether the key a register value selects is down: the low 4 bits index the snapshot (R220). -/
def keyDown (s : State) (a : Byte) : Bool := s.keys.getLsbD (a.toNat % 16)

end Sys2Proof.Machine
end

