-- ==== Sys2Proof/Machine/ControlFlow.lean ====
section
/-! DEFINITION. Return, jumps, call and the register skips (spec/41_control_flow.md). PC is already advanced (R114). -/

namespace Sys2Proof.Machine

/-- 00EE (R132): `PC <- pop()`. -/
def execRet (s : State) : Answer := finish false ((pop s).andThen fun w s => .done () (s.setPc w))

/-- 1NNN (R133): `PC <- NNN`. -/
def execJp (nnn : Addr12) (s : State) : Answer := complete false (s.setPc (zextAddr nnn))

/-- 2NNN (R134): `push(PC)`, then `PC <- NNN`. -/
def execCall (nnn : Addr12) (s : State) : Answer :=
  finish false ((push s.pc s).andThen fun _ s => .done () (s.setPc (zextAddr nnn)))

/-- BNNN (R135): `PC <- NNN + V0`, modulo 65536, not masked to 12 bits. -/
def execJpV0 (nnn : Addr12) (s : State) : Answer :=
  complete false (s.setPc (BitVec.ofNat 16 (nnn.toNat + (s.reg 0).toNat)))

/-- 3XNN (R137). -/
def execSeImm (x : RegIdx) (nn : Byte) (s : State) : Answer := complete false (skipIf (s.reg x = nn) s)

/-- 4XNN (R138). -/
def execSneImm (x : RegIdx) (nn : Byte) (s : State) : Answer := complete false (skipIf (s.reg x ≠ nn) s)

/-- 5XY0 (R139). -/
def execSeReg (x y : RegIdx) (s : State) : Answer := complete false (skipIf (s.reg x = s.reg y) s)

/-- 9XY0 (R140). -/
def execSneReg (x y : RegIdx) (s : State) : Answer := complete false (skipIf (s.reg x ≠ s.reg y) s)

end Sys2Proof.Machine
end

