-- ==== Sys2Proof/Machine/Flags.lean ====
section
/-! DEFINITION. VF as the flag register (spec/10_state.md R21) and every flag computation of the spec (spec/42_load_alu.md
R163, spec/43_index_memory.md R181). -/

namespace Sys2Proof.Machine

/-- VF, index 15 (R20, R21). -/
def vf : RegIdx := 0xF

/-- A flag as the byte written to VF: 0x01 or 0x00 (R21). -/
def flagByte (c : Bool) : Byte := if c then 1 else 0

/-- `V[F] <- flag`, all 8 bits (R21). -/
def State.setFlag (s : State) (c : Bool) : State := s.setReg vf (flagByte c)

/-- Carry out of bit 7 (R157). -/
def carryOut (a b : Byte) : Bool := decide (a.toNat + b.toNat > 255)

/-- No borrow in `a - b` (R158, R160). -/
def noBorrow (a b : Byte) : Bool := decide (a.toNat ≥ b.toNat)

/-- The bit a right shift by one takes out (R159). -/
def lowBit (a : Byte) : Bool := a.getLsbD 0

/-- The bit a left shift by one takes out (R161). -/
def highBit (a : Byte) : Bool := a.getLsbD 7

/-- The unreduced sum lies beyond the last memory address (R181). -/
def beyondMemory (sum : Nat) : Bool := decide (sum > 0xFFF)

/-- A result and its flag: the result to VX first, the flag to VF last, so that with X = F the flag stays (R150). -/
def writeResultThenFlag (x : RegIdx) (result : Byte) (flag : Bool) (s : State) : State :=
  (s.setReg x result).setFlag flag

end Sys2Proof.Machine
end

