-- ==== Sys2Proof/Machine/Display.lean ====
section
/-! DEFINITION. The framebuffer address decoder (spec/20_memory.md R61) and the display instructions (spec/44_display.md). -/

namespace Sys2Proof.Machine

/-- `fb_addr(x, y)` (R61). -/
def fbAddr (x y : Nat) : Nat := fbBase + 8 * y + x / 8

/-- `fb_mask(x)`: the leftmost pixel of a byte is its bit 7 (R61). -/
def fbMask (x : Nat) : Byte := 0x80 >>> (x % 8)

/-- `get_pixel(x, y)` (R61). -/
def getPixel (m : Memory) (x y : Nat) : Bool := Memory.read m (fbAddr x y) &&& fbMask x ≠ 0

/-- The memory effect of `toggle_pixel(x, y)` (R61); its previous value is `getPixel` before it. -/
def togglePixel (m : Memory) (x y : Nat) : Memory :=
  Memory.write m (fbAddr x y) (Memory.read m (fbAddr x y) ^^^ fbMask x)

/-- "Clearing sets the whole 256-byte region to zero" (R61, R200). -/
def clearFramebuffer (m : Memory) : Memory :=
  (List.range fbSize).foldl (fun m j => Memory.write m (fbBase + j) 0) m

/-- Where the pixel of a sprite at the unreduced coordinates (px, py) falls: R201 clips; the alternative wraps (U1). -/
def resolvePixel : EdgeMode → Nat → Nat → Option (Nat × Nat)
  | .clip, px, py => if px < 64 ∧ py < 32 then some (px, py) else none
  | .wrap, px, py => some (px % 64, py % 32)

/-- One 1 bit of a sprite at the unreduced coordinates (px, py): the pixel is toggled, and VF becomes 1 where it was lit
(R201). A clipped pixel does nothing. -/
def drawPixel (px py : Nat) (s : State) : State :=
  match resolvePixel s.cfg.edge px py with
  | none => s
  | some (x, y) =>
    let s' := s.setMem (togglePixel s.mem x y)
    if getPixel s.mem x y then s'.setFlag true else s'

/-- One row of a sprite, its byte `b` from the MSB on (R201). -/
def drawRow (x0 py : Nat) (b : Byte) (s : State) : State :=
  (List.range 8).foldl (fun s bit => if b.getLsbD (7 - bit) then drawPixel (x0 + bit) py s else s) s

/-- The rows of a sprite, each read just before it is drawn (R201): `n` rows from address `a`, the first at height `py`. -/
def drawRows : Nat → Nat → Nat → Nat → State → Progress Unit
  | _, _, _, 0, s => .done () s
  | a, x0, py, n + 1, s =>
    (memRead a s).andThen fun b s => drawRows (a + 1) x0 (py + 1) n (drawRow x0 py b s)

/-- 00E0 (R200). -/
def execCls (s : State) : Answer := complete true (s.setMem (clearFramebuffer s.mem))

/-- DXYN (R201): the coordinates are read before VF is cleared (R150). -/
def execDrw (x y : RegIdx) (n : Nibble) (s : State) : Answer :=
  finish true (drawRows (indexBase s) (s.reg x).toNat (s.reg y).toNat n.toNat (s.setFlag false))

end Sys2Proof.Machine
end

