-- ==== Sys2Proof/Machine/IndexMemory.lean ====
section
/-! DEFINITION. The index register and data memory (spec/43_index_memory.md). No load or store changes I (R186). -/

namespace Sys2Proof.Machine

/-- ANNN (R180). -/
def execLdI (nnn : Addr12) (s : State) : Answer := complete false (s.setI (zextAddr nnn))

/-- FX1E (R181): the sum is stored modulo 65536; the flag is that of the unreduced sum and is written last. -/
def execAddI (x : RegIdx) (s : State) : Answer :=
  let sum := s.i.toNat + (s.reg x).toNat
  complete false ((s.setI (BitVec.ofNat 16 sum)).setFlag (beyondMemory sum))

/-- FX29 (R182). -/
def execLdF (x : RegIdx) (s : State) : Answer := complete false (s.setI (glyphAddress (s.reg x)))

/-- FX33 (R183): hundreds, tens, ones at I, I + 1, I + 2. -/
def execLdB (x : RegIdx) (s : State) : Answer :=
  finish false (storeBytes (indexBase s) (decimalDigits (s.reg x)) s)

/-- FX55 (R184): V0 to VX at I, I + 1, and so on. -/
def execStRegs (x : RegIdx) (s : State) : Answer :=
  finish false (storeBytes (indexBase s) ((regsUpTo x).map s.reg) s)

/-- FX65 (R185): V0 to VX from I, I + 1, and so on. -/
def execLdRegs (x : RegIdx) (s : State) : Answer :=
  finish false (loadBytes (indexBase s) (regsUpTo x) s)

end Sys2Proof.Machine
end

