-- ==== Sys2Proof/Machine/KeysTimers.lean ====
section
/-! DEFINITION. The keypad and timer instructions (spec/45_keys_timers.md). -/

namespace Sys2Proof.Machine

/-- EX9E (R221). -/
def execSkp (x : RegIdx) (s : State) : Answer := complete false (skipIf (keyDown s (s.reg x)) s)

/-- EXA1 (R222). -/
def execSknp (x : RegIdx) (s : State) : Answer := complete false (skipIf (!keyDown s (s.reg x)) s)

/-- FX07 (R224). -/
def execLdVxDt (x : RegIdx) (s : State) : Answer := complete false (s.setReg x s.dt)

/-- FX0A (R223): the least key down at once, or the wait latch is set. -/
def execLdVxK (x : RegIdx) (s : State) : Answer :=
  complete false
    (match firstKey s.keys with
     | some k => s.setReg x (BitVec.ofNat 8 k)
     | none   => s.setWait true x)

/-- FX15 (R225). -/
def execLdDtVx (x : RegIdx) (s : State) : Answer := complete false (s.setDt (s.reg x))

/-- FX18 (R226). -/
def execLdStVx (x : RegIdx) (s : State) : Answer := complete false (s.setSt (s.reg x))

end Sys2Proof.Machine
end

