-- ==== Sys2Proof/Machine/LoadAlu.lean ====
section
/-! DEFINITION. Register loads and the ALU (spec/42_load_alu.md). Operands are read before anything is written (R150);
arithmetic is unsigned, modulo 256 (R164). -/

namespace Sys2Proof.Machine

/-- 6XNN (R151). -/
def execLdImm (x : RegIdx) (nn : Byte) (s : State) : Answer := complete false (s.setReg x nn)

/-- 7XNN (R152): modulo 256; VF is not written. -/
def execAddImm (x : RegIdx) (nn : Byte) (s : State) : Answer := complete false (s.setReg x (s.reg x + nn))

/-- 8XY0 (R153). -/
def execLdReg (x y : RegIdx) (s : State) : Answer := complete false (s.setReg x (s.reg y))

/-- 8XY1 (R154). -/
def execOrReg (x y : RegIdx) (s : State) : Answer := complete false (s.setReg x (s.reg x ||| s.reg y))

/-- 8XY2 (R155). -/
def execAndReg (x y : RegIdx) (s : State) : Answer := complete false (s.setReg x (s.reg x &&& s.reg y))

/-- 8XY3 (R156). -/
def execXorReg (x y : RegIdx) (s : State) : Answer := complete false (s.setReg x (s.reg x ^^^ s.reg y))

/-- 8XY4 (R157). -/
def execAddReg (x y : RegIdx) (s : State) : Answer :=
  complete false (writeResultThenFlag x (s.reg x + s.reg y) (carryOut (s.reg x) (s.reg y)) s)

/-- 8XY5 (R158). -/
def execSubReg (x y : RegIdx) (s : State) : Answer :=
  complete false (writeResultThenFlag x (s.reg x - s.reg y) (noBorrow (s.reg x) (s.reg y)) s)

/-- 8XY6 (R159): VY is neither read nor written (R87). -/
def execShr (x _y : RegIdx) (s : State) : Answer :=
  complete false (writeResultThenFlag x (s.reg x >>> 1) (lowBit (s.reg x)) s)

/-- 8XY7 (R160): the destination is VX, the operands are reversed. -/
def execSubnReg (x y : RegIdx) (s : State) : Answer :=
  complete false (writeResultThenFlag x (s.reg y - s.reg x) (noBorrow (s.reg y) (s.reg x)) s)

/-- 8XYE (R161): VY is neither read nor written (R87). -/
def execShl (x _y : RegIdx) (s : State) : Answer :=
  complete false (writeResultThenFlag x (s.reg x <<< 1) (highBit (s.reg x)) s)

/-- CXNN (R162): the random byte is the input of this step (R29). -/
def execRnd (x : RegIdx) (nn : Byte) (s : State) : Answer := complete false (s.setReg x (s.rnd &&& nn))

end Sys2Proof.Machine
end

