-- ==== Sys2Proof/Machine/Init.lean ====
section
/-! DEFINITION. Machine initialisation, the only reset (spec/70_reset_and_hazards.md R280 to R282). `State.reset` is its
outcome for the values this model names and an empty program image (`Sys2Proof.Laws.initialise_reset`). -/

namespace Sys2Proof.Machine

/-- The open parameters of initialisation (R33, R34, decision D2), and what the model's own fields start with; FONT (R5)
is `cfg.font`. RESET_MEM is given as a memory in canonical form: every image of 4096 bytes is one. -/
structure ResetParams where
  resetV   : Vector Byte 16
  resetI   : Word
  resetMem : Memory
  waitReg  : RegIdx
  inputs   : List DriverInput
  cfg      : Config
  deriving DecidableEq, Repr

/-- The values `State.reset` takes (log 1 to 11). -/
def ResetParams.named : ResetParams where
  resetV   := Machine.resetV
  resetI   := Machine.resetI
  resetMem := []
  waitReg  := resetWaitReg
  inputs   := []
  cfg      := resetCfg

/-- `load_font()` (R281): the 80 bytes of the machine's FONT (R62) to 0x000 to 0x04F. -/
def loadFont (s : State) : State := s.setMem (Memory.writeAll s.mem 0 s.cfg.font.toList)

/-- `load_rom(bytes)` (R282): too long an image is refused and nothing is copied; else it is copied to 0x200 on. -/
def loadRom (rom : List Byte) (s : State) : Answer :=
  if romFits rom then .next (s.setMem (Memory.writeAll s.mem progBase rom)) else .fault .romTooLarge

/-- The registers as initialisation sets them, before the loaders run (R280). -/
def initialRegisters (p : ResetParams) : State :=
  { State.reset with
    v := p.resetV, i := p.resetI, pc := 0x200, dt := 0, st := 0, sp := 0xEA0, waitValid := false
    waitReg := p.waitReg, mem := p.resetMem, inputs := p.inputs, cfg := p.cfg }

/-- `initialise(rom)` (R280): the registers, then the font, then the program image. A machine whose image is refused is
not runnable, whatever the driver's policy: the answer is a fault. -/
def initialise (p : ResetParams) (rom : List Byte) : Answer := loadRom rom (loadFont (initialRegisters p))

end Sys2Proof.Machine
end

