-- ==== Sys2Proof/Machine/Step.lean ====
section
/-! DEFINITION. One step of the machine (spec/40_step_cycle.md R112), and the placing of one instruction where the next
step fetches. -/

namespace Sys2Proof.Machine

/-- One step of the model: the driver delivers its next input (log 6, 7), then the core's step runs (R112): a wait step
while a key is awaited (R116), else fetch, advance PC, decode, execute. -/
def step (s : State) : Host.Outcome State Fault Refusal :=
  let s := deliver s
  if s.waitValid then waitStep s
  else
    match fetch s with
    | .failed e s => raise e s
    | .done op s =>
      match decode op with
      | .error (.unknown code) => raise (.unknownOpcode code) (advance s)
      | .error .truncated      => raise (.unknownOpcode op) (advance s)
      | .ok i                  => exec i (advance s)

/-- `s` with an instruction placed where the next step fetches it (log 10, 25): any key wait is ended, and a PC from
which two bytes cannot be fetched is put back to the entry point. -/
def State.withFetchWord (s : State) (nbits w : Nat) : State :=
  let s := s.setWait false s.waitReg
  let s := if s.pc.toNat + 1 ≤ 0xFFF then s else s.setPc 0x200
  s.setMem (Memory.writeAll s.mem s.pc.toNat (bytesOfWord (tableWord nbits w)))

end Sys2Proof.Machine
end

