-- ==== Sys2Proof/Safety.lean ====
section
/-! DEFINITION. The terms the statements use: what a legal state is (spec/10_state.md R32), what two states agree on, how
an instruction completes or raises an error, and the spec's tables of who writes what (spec/10_state.md R20, R21, R31). -/

namespace Sys2Proof.Machine

/-! ### The invariant -/

/-- SP is one of the 17 legal values 0xEA0, 0xEA2, …, 0xEC0 (R26, R32). -/
def spLegal (s : State) : Prop := 0xEA0 ≤ s.sp.toNat ∧ s.sp.toNat ≤ 0xEC0 ∧ s.sp.toNat % 2 = 0

/-- The word stored at address `a`, high byte first (R56). -/
def wordAt (m : Memory) (a : Nat) : Word := wordOfBytes (Memory.read m a) (Memory.read m (a + 1))

/-- While a key is awaited, PC is the address of the FX0A that waits, plus 2, and WAIT.reg is its X (R27, R32). -/
def waitConsistent (s : State) : Prop :=
  s.waitValid = true →
    2 ≤ s.pc.toNat ∧ s.pc.toNat ≤ 0x1000 ∧ decode (wordAt s.mem (s.pc.toNat - 2)) = .ok (.ldVxK s.waitReg)

/-- The invariant of the machine (R32), with the canonical form of its memory. -/
structure Inv (s : State) : Prop where
  memory : Memory.wf s.mem = true
  stack  : spLegal s
  wait   : waitConsistent s

/-! ### What two states agree on -/

/-- Every byte of memory reads the same. -/
def SameMemory (s t : State) : Prop := ∀ a, Memory.read t.mem a = Memory.read s.mem a

/-- Every byte of memory outside the addresses of `P` reads the same. -/
def SameMemoryOutside (P : Nat → Prop) (s t : State) : Prop := ∀ a, ¬ P a → Memory.read t.mem a = Memory.read s.mem a

/-- Every general register outside `P` is the same. -/
def SameRegsOutside (P : RegIdx → Prop) (s t : State) : Prop := ∀ j, ¬ P j → t.reg j = s.reg j

/-- Every general register is the same. -/
def SameRegs (s t : State) : Prop := ∀ j, t.reg j = s.reg j

/-- The timers and the wait latch are the same. -/
def SameTimersAndWait (s t : State) : Prop :=
  t.dt = s.dt ∧ t.st = s.st ∧ t.waitValid = s.waitValid ∧ t.waitReg = s.waitReg

/-- DT, ST, SP and the wait latch are the same. -/
def SameSpecials (s t : State) : Prop := SameTimersAndWait s t ∧ t.sp = s.sp

/-- The model's own input fields and the configuration are the same. -/
def SamePorts (s t : State) : Prop :=
  t.keys = s.keys ∧ t.rnd = s.rnd ∧ t.inputs = s.inputs ∧ t.drawn = s.drawn ∧ t.cfg = s.cfg

/-- Everything of the spec's state is the same (the nine items of R31, memory byte by byte). -/
def SameMachine (s t : State) : Prop :=
  SameRegs s t ∧ t.i = s.i ∧ t.pc = s.pc ∧ SameSpecials s t ∧ SameMemory s t

/-! ### How an instruction ends -/

/-- `i` ANSWERS A NEXT STATE from `s`: the step returns SideEffects with this `drew` and with WAIT.valid as it is at the
end (R117), the input fields and the configuration stay, and the next state has the property. -/
def Completes (i : Instr) (s : State) (drew : Bool) (post : State → Prop) : Prop :=
  ∃ t, exec i s = .next t ∧ t.result = .sideEffects drew t.waitValid ∧ SamePorts s t ∧ post t

/-- An answer is the error `e`, and the state the error leaves has the property (R118, R248): with a driver that goes on
it is that next state, which returns the error; with a driver that halts it is the fault (R120, U9; log 8). -/
def IsError (answer : Answer) (s : State) (e : Fault) (post : State → Prop) : Prop :=
  (s.cfg.policy = .halt → answer = .fault e) ∧
  (s.cfg.policy = .logAndSkip → ∃ t, answer = .next t ∧ t.result = .error e ∧ post t)

/-- `i` raises `e` from `s`; the input fields and the configuration stay, and the state left has the property. -/
def Raises (i : Instr) (s : State) (e : Fault) (post : State → Prop) : Prop :=
  IsError (exec i s) s e fun t => SamePorts s t ∧ post t

/-- `i` completes and writes VX only: `b` to it. PC stays as the fetch left it. -/
def WritesOnlyVx (i : Instr) (s : State) (x : RegIdx) (b : Byte) : Prop :=
  Completes i s false fun t =>
    t.reg x = b ∧ SameRegsOutside (· = x) s t ∧ t.i = s.i ∧ t.pc = s.pc ∧ SameSpecials s t ∧ SameMemory s t

/-- `i` completes and writes `b` to VX and then the flag to VF: with X = F the flag is what stays. -/
def WritesVxThenFlag (i : Instr) (s : State) (x : RegIdx) (b : Byte) (flag : Prop) : Prop :=
  Completes i s false fun t =>
    (x ≠ 0xF → t.reg x = b) ∧ (flag → t.reg 0xF = 1) ∧ (¬ flag → t.reg 0xF = 0) ∧
    SameRegsOutside (fun j => j = x ∨ j = 0xF) s t ∧ t.i = s.i ∧ t.pc = s.pc ∧ SameSpecials s t ∧ SameMemory s t

/-- `i` completes and changes PC only: by a further 2 where the condition holds (R136). -/
def SkipsWhen (i : Instr) (s : State) (condition : Prop) : Prop :=
  Completes i s false fun t =>
    (condition → t.pc.toNat = (s.pc.toNat + 2) % 65536) ∧ (¬ condition → t.pc = s.pc) ∧
    SameRegs s t ∧ t.i = s.i ∧ SameSpecials s t ∧ SameMemory s t

/-- `i` completes and changes PC only: to the number. -/
def JumpsTo (i : Instr) (s : State) (target : Nat) : Prop :=
  Completes i s false fun t =>
    t.pc.toNat = target ∧ SameRegs s t ∧ t.i = s.i ∧ SameSpecials s t ∧ SameMemory s t

/-- `i` completes and changes I only: to the number. -/
def WritesOnlyI (i : Instr) (s : State) (value : Nat) : Prop :=
  Completes i s false fun t =>
    t.i.toNat = value ∧ SameRegs s t ∧ t.pc = s.pc ∧ SameSpecials s t ∧ SameMemory s t

/-- The encoding the spec gives an instruction: its row's match and mask (R85), and the word with its fields filled in
(R82, R93), which the decoder reads back. -/
def EncodedAs (i : Instr) (pattern mask w : Word) : Prop := rowOf i = ⟨pattern, mask⟩ ∧ encode i = w ∧ decode w = .ok i

/-! ### The spec's tables of who writes and who raises what -/

/-- R20's table: the registers an instruction may write, VF as a flag among them. -/
def writesReg : Instr → RegIdx → Prop
  | .ldImm x _, j | .addImm x _, j | .ldReg x _, j | .orReg x _, j | .andReg x _, j | .xorReg x _, j
  | .rnd x _, j | .ldVxDt x, j | .ldVxK x, j => j = x
  | .addReg x _, j | .subReg x _, j | .shr x _, j | .subnReg x _, j | .shl x _, j => j = x ∨ j = 0xF
  | .drw _ _ _, j | .addI _, j => j = 0xF
  | .ldRegs x, j => j ≤ x
  | .cls, _ | .ret, _ | .jp _, _ | .call _, _ | .seImm _ _, _ | .sneImm _ _, _ | .seReg _ _, _ | .sneReg _ _, _
  | .ldI _, _ | .jpV0 _, _ | .skp _, _ | .sknp _, _ | .ldDtVx _, _ | .ldStVx _, _ | .ldF _, _ | .ldB _, _
  | .stRegs _, _ => False

/-- The instructions that document a flag effect, "exactly" (R21). -/
def setsFlag : Instr → Prop
  | .addReg _ _ | .subReg _ _ | .shr _ _ | .subnReg _ _ | .shl _ _ | .drw _ _ _ | .addI _ => True
  | .cls | .ret | .jp _ | .call _ | .seImm _ _ | .sneImm _ _ | .seReg _ _ | .sneReg _ _ | .ldImm _ _ | .addImm _ _
  | .ldReg _ _ | .orReg _ _ | .andReg _ _ | .xorReg _ _ | .ldI _ | .jpV0 _ | .rnd _ _ | .skp _ | .sknp _ | .ldVxDt _
  | .ldVxK _ | .ldDtVx _ | .ldStVx _ | .ldF _ | .ldB _ | .stRegs _ | .ldRegs _ => False

/-- The instructions that store to memory (R31, R59). -/
def writesMemory : Instr → Prop
  | .cls | .call _ | .drw _ _ _ | .ldB _ | .stRegs _ => True
  | .ret | .jp _ | .seImm _ _ | .sneImm _ _ | .seReg _ _ | .sneReg _ _ | .ldImm _ _ | .addImm _ _
  | .ldReg _ _ | .orReg _ _ | .andReg _ _ | .xorReg _ _ | .addReg _ _ | .subReg _ _ | .shr _ _ | .subnReg _ _
  | .shl _ _ | .ldI _ | .jpV0 _ | .rnd _ _ | .skp _ | .sknp _ | .ldVxDt _ | .ldVxK _ | .ldDtVx _ | .ldStVx _
  | .addI _ | .ldF _ | .ldRegs _ => False

/-- The instructions that look at the key snapshot (R29). -/
def readsKeys : Instr → Prop
  | .skp _ | .sknp _ | .ldVxK _ => True
  | .cls | .ret | .jp _ | .call _ | .seImm _ _ | .sneImm _ _ | .seReg _ _ | .sneReg _ _ | .ldImm _ _ | .addImm _ _
  | .ldReg _ _ | .orReg _ _ | .andReg _ _ | .xorReg _ _ | .addReg _ _ | .subReg _ _ | .shr _ _ | .subnReg _ _
  | .shl _ _ | .ldI _ | .jpV0 _ | .rnd _ _ | .drw _ _ _ | .ldVxDt _ | .ldDtVx _ | .ldStVx _ | .addI _ | .ldF _
  | .ldB _ | .stRegs _ | .ldRegs _ => False

/-- The errors an instruction may raise (R242, R243, R244, R249). -/
def mayRaise : Instr → Fault → Prop
  | .call _, e => e = .stackOverflow
  | .ret, e => e = .stackUnderflow
  | .drw _ _ _, e | .ldB _, e | .stRegs _, e | .ldRegs _, e => ∃ a, 0x1000 ≤ a ∧ a ≤ 0xFFFF ∧ e = .outOfBounds a
  | .cls, _ | .jp _, _ | .seImm _ _, _ | .sneImm _ _, _ | .seReg _ _, _ | .sneReg _ _, _ | .ldImm _ _, _
  | .addImm _ _, _ | .ldReg _ _, _ | .orReg _ _, _ | .andReg _ _, _ | .xorReg _ _, _ | .addReg _ _, _ | .subReg _ _, _
  | .shr _ _, _ | .subnReg _ _, _ | .shl _ _, _ | .ldI _, _ | .jpV0 _, _ | .rnd _ _, _ | .skp _, _ | .sknp _, _
  | .ldVxDt _, _ | .ldVxK _, _ | .ldDtVx _, _ | .ldStVx _, _ | .addI _, _ | .ldF _, _ => False

/-- The state with another key snapshot. -/
def withKeys (k : BitVec 16) (s : State) : State := { s with keys := k }

/-- The state with another random byte. -/
def withRnd (r : Byte) (s : State) : State := { s with rnd := r }

/-- An answer with its next state changed by `f`. -/
def mapNext (f : State → State) : Answer → Answer
  | .next t    => .next (f t)
  | .fault e   => .fault e
  | .refused r => .refused r

/-! ### Sprites (spec/44_display.md R201) -/

/-- How far right of (or below) a sprite's first column (or row) `p0` the screen's column (or row) `p` lies: by R201, with
nothing to the left of it or above it; under `wrap` (U1) counted round the screen's `size`. -/
def spriteOffset : EdgeMode → Nat → Nat → Nat → Option Nat
  | .clip, _, p0, p    => if p0 ≤ p then some (p - p0) else none
  | .wrap, size, p0, p => some ((p + size - p0 % size) % size)

/-- The bit the sprite of `n` rows at address `a` has for the pixel (px, py) of the screen, drawn with its top left at
(x0, y0): bit 7 of a row byte is its leftmost pixel; outside the sprite's 8 columns and `n` rows there is none. -/
def spriteBit (edge : EdgeMode) (m : Memory) (a n x0 y0 px py : Nat) : Bool :=
  match spriteOffset edge 64 x0 px, spriteOffset edge 32 y0 py with
  | some column, some row =>
    decide (column < 8) && decide (row < n) && (Memory.read m (a + row)).getLsbD (7 - column)
  | _, _ => false

/-- `a` is the framebuffer byte of a pixel under the sprite's 8 columns and `n` rows. -/
def underSprite (edge : EdgeMode) (n x0 y0 a : Nat) : Prop :=
  ∃ bit row px py, bit < 8 ∧ row < n ∧ resolvePixel edge (x0 + bit) (y0 + row) = some (px, py) ∧ a = fbAddr px py

/-- The `n` bytes of the sprite at I are in memory; a sprite of no rows has none (R201). -/
def SpriteInMemory (s : State) (n : Nibble) : Prop := n = 0 ∨ s.i.toNat + n.toNat ≤ 0x1000

/-- None of the sprite's bytes is a framebuffer byte under it, so that drawing it does not change it (R202, R288). -/
def SpriteApart (s : State) (x y : RegIdx) (n : Nibble) : Prop :=
  ∀ row, row < n.toNat →
    ¬ underSprite s.cfg.edge n.toNat (s.reg x).toNat (s.reg y).toNat (s.i.toNat + row)

end Sys2Proof.Machine
end

