-- ==== Sys2Proof/Certificates/Slice0/Obligations.lean ====
section
/-! DEFINITION. The statements for the provers, each from the numbered rules of spec/. A docstring names the rules; where a
clause rests on a decision the spec marks as its own (D<n> of 92_eei_decisions.md) or on a choice of this model (log
<n>), it says so. The terms (`Completes`, `Raises`, `WritesOnlyVx`, …) are in Sys2Proof/Safety.lean. -/

open Sys2Proof Sys2Proof.Machine

/-! ### Encoding (30_encoding.md) -/

/-- R81, R92, R93: encoding is the inverse of decoding, for every instruction and every operand; with the bytes laid out
high byte first (R56). The Y of 8XY6 and 8XYE is among the operands only because this model keeps it in the instruction
(log 26): nothing reads it (R87). -/
def Obligations.DecodeOfEncodeIsTheInstruction : Prop :=
  ∀ i : Instr, decode (encode i) = .ok i ∧ decodeBytes (bytesOfWord (encode i)) = .ok (i, [])

/-- R81, R92, R93: a word that decodes is the encoding of what it decodes to: no bit of a word is dropped. R93 promises
this for 8XY6 and 8XYE only up to their Y; that it holds of every bit there too is this model's choice to keep Y in the
instruction (log 26). -/
def Obligations.EncodeOfDecodeIsTheWord : Prop :=
  ∀ (op : Word) (i : Instr), decode op = .ok i → encode i = op

/-- R84, R85, R86: the decoder is total; it gives an instruction exactly for the words a row of the opcode map selects,
an instruction of a row that selects the word, and names every other word. -/
def Obligations.DecoderAcceptsExactlyTheOpcodeMap : Prop :=
  ∀ op : Word,
    (∀ i, decode op = .ok i → (rowOf i).selects op = true) ∧
    (wellFormedWord op = true → ∃ i, decode op = .ok i) ∧
    (wellFormedWord op = false → decode op = .error (.unknown op))

/-- R85: 34 rows, and no word is selected by two of them. The rows are compared by their places in the table, so that two
equal rows would be two rows selecting the same words. -/
def Obligations.OpcodeRowsSelectDisjointWords : Prop :=
  opcodeRows.length = 34 ∧
  opcodeRows.Pairwise fun r r' => ∀ op : Word, ¬ (r.selects op = true ∧ r'.selects op = true)

/-- R85 with the examples of 41 to 45: words written out from the encodings decode to what they stand for. -/
def Obligations.WrittenOutWordsDecode : Prop :=
  decode 0x00E0 = .ok .cls ∧ decode 0x00EE = .ok .ret ∧ decode 0x2210 = .ok (.call 0x210) ∧
  decode 0x332A = .ok (.seImm 3 0x2A) ∧ decode 0x8014 = .ok (.addReg 0 1) ∧ decode 0x812E = .ok (.shl 1 2) ∧
  decode 0xA2F0 = .ok (.ldI 0x2F0) ∧ decode 0xD125 = .ok (.drw 1 2 5) ∧ decode 0xE29E = .ok (.skp 2) ∧
  decode 0xF30A = .ok (.ldVxK 3) ∧ decode 0xF255 = .ok (.stRegs 2) ∧ decode 0x5121 = .error (.unknown 0x5121)

/-! ### The step (40_step_cycle.md) -/

/-- R112, R113, R114, R115: where no key is awaited and the word at PC decodes, the step is that instruction's, run on the
state with the driver's input delivered (log 6, 7) and PC advanced by 2; nothing else changes before it. -/
def Obligations.StepRunsTheDecodedInstruction : Prop :=
  ∀ (s : State) (i : Instr),
    s.waitValid = false → s.pc.toNat + 1 ≤ 0xFFF → decode (wordAt s.mem s.pc.toNat) = .ok i →
    step s = exec i (advance (deliver s)) ∧
    (advance (deliver s)).pc.toNat = s.pc.toNat + 2 ∧ SameRegs s (advance (deliver s)) ∧
    (advance (deliver s)).i = s.i ∧ (advance (deliver s)).sp = s.sp ∧
    (advance (deliver s)).waitValid = s.waitValid ∧ (advance (deliver s)).waitReg = s.waitReg ∧
    SameMemory s (advance (deliver s))

/-- Log 10, 25: the instruction `withFetchWord` places is the one the very next step runs. -/
def Obligations.PlacedWordIsRunNext : Prop :=
  ∀ (s : State) (nbits w : Nat) (i : Instr), decodeTableWord nbits w = some i →
    step (s.withFetchWord nbits w) = exec i (advance (deliver (s.withFetchWord nbits w)))

/-- R29, R110, R253 with log 6 and 7: what a step starts from. The oldest input waiting gives the ticks, the snapshot and
the random byte; where none waits, free values do. Nothing else of the machine changes. -/
def Obligations.DeliverHandsOverTheNextInput : Prop :=
  ∀ s : State,
    (∀ input rest, s.inputs = input :: rest →
      (deliver s).keys = input.keys ∧ (deliver s).rnd = input.rnd ∧ (deliver s).inputs = rest ∧
      (deliver s).dt.toNat = s.dt.toNat - input.ticks ∧ (deliver s).st.toNat = s.st.toNat - input.ticks) ∧
    (s.inputs = [] →
      (deliver s).keys = Config.freeKeys s.drawn ∧ (deliver s).rnd = Config.freeRnd s.drawn ∧ (deliver s).inputs = [] ∧
      (deliver s).dt.toNat = s.dt.toNat - Config.freeTicks s.drawn ∧
      (deliver s).st.toNat = s.st.toNat - Config.freeTicks s.drawn) ∧
    SameRegs s (deliver s) ∧ (deliver s).i = s.i ∧ (deliver s).pc = s.pc ∧ (deliver s).sp = s.sp ∧
    (deliver s).waitValid = s.waitValid ∧ (deliver s).waitReg = s.waitReg ∧ (deliver s).cfg = s.cfg ∧
    SameMemory s (deliver s)

/-- R86, R115, R241: a word that is no instruction raises UnknownOpcode of the whole word, with PC advanced by 2 and
nothing else changed. How the error reaches the driver is log 8 and 9. -/
def Obligations.UnknownWordRaisesUnknownOpcode : Prop :=
  ∀ s : State,
    s.waitValid = false → s.pc.toNat + 1 ≤ 0xFFF → wellFormedWord (wordAt s.mem s.pc.toNat) = false →
    IsError (step s) s (.unknownOpcode (wordAt s.mem s.pc.toNat)) fun t =>
      t.pc.toNat = s.pc.toNat + 2 ∧ SameMachine (advance (deliver s)) t

/-- R53, R113 (decision D17): a fetch beyond 0xFFF raises OutOfBounds of the first byte that is beyond it, and PC is not
advanced. -/
def Obligations.FetchBeyondMemoryRaisesOutOfBounds : Prop :=
  ∀ s : State, s.waitValid = false →
    (0xFFF < s.pc.toNat → IsError (step s) s (.outOfBounds s.pc.toNat) (SameMachine (deliver s))) ∧
    (s.pc.toNat = 0xFFF → IsError (step s) s (.outOfBounds 0x1000) (SameMachine (deliver s)))

/-- R116, R220 (decisions D12, D13): while a key is awaited a step fetches nothing; with no key down nothing changes and
awaiting_key is reported, else the least key down goes to V[WAIT.reg] and the wait ends. -/
def Obligations.WaitStepTakesTheLeastKeyDown : Prop :=
  ∀ s : State, s.waitValid = true →
    ((deliver s).keys = 0 →
      ∃ t, step s = .next t ∧ t.result = .sideEffects false true ∧ SameMachine (deliver s) t ∧
        SamePorts (deliver s) t) ∧
    (∀ k, k < 16 → (deliver s).keys.getLsbD k = true → (∀ j, j < k → (deliver s).keys.getLsbD j = false) →
      ∃ t, step s = .next t ∧ t.result = .sideEffects false false ∧ t.waitValid = false ∧
        (t.reg s.waitReg).toNat = k ∧ SameRegsOutside (· = s.waitReg) s t ∧ t.i = s.i ∧ t.pc = s.pc ∧ t.sp = s.sp ∧
        t.dt = (deliver s).dt ∧ t.st = (deliver s).st ∧ SameMemory s t ∧ SamePorts (deliver s) t)

/-- R117, R120, R250 (decision D18): no error, and no other result, is remembered: a step does not depend on what the step
before it returned. -/
def Obligations.ResultsAreNotRemembered : Prop :=
  ∀ (s : State) (r : StepResult), step (s.setResult r) = step s

/-- R121 with log 8: the core has no way to halt. Every step gives a next state, but for an error with a driver that
halts. -/
def Obligations.StepAlwaysGoesOn : Prop :=
  ∀ s : State, (∃ t, step s = .next t) ∨ (s.cfg.policy = .halt ∧ ∃ e, step s = .fault e)

/-- R65, R290: a store into the bytes of the next instruction is what the next step fetches. FX55 with X = 1 and I at PC
replaces the next word by V0, V1. -/
def Obligations.StoredCodeIsFetchedNext : Prop :=
  ∀ (s : State) (i : Instr),
    s.waitValid = false → s.i = s.pc → s.pc.toNat + 1 ≤ 0xFFF → decode (wordOfBytes (s.reg 0) (s.reg 1)) = .ok i →
    ∃ t, exec (.stRegs 1) s = .next t ∧ step t = exec i (advance (deliver t))

/-! ### Timers (60_exceptions.md) -/

/-- R253: a tick takes 1 from each timer that is not 0, each on its own, and changes nothing else. -/
def Obligations.TickDecrementsBothTimersToAFloorOfZero : Prop :=
  ∀ s : State,
    (tick s).dt.toNat = s.dt.toNat - 1 ∧ (tick s).st.toNat = s.st.toNat - 1 ∧
    SameRegs s (tick s) ∧ (tick s).i = s.i ∧ (tick s).pc = s.pc ∧ (tick s).sp = s.sp ∧
    (tick s).waitValid = s.waitValid ∧ (tick s).waitReg = s.waitReg ∧ SameMemory s (tick s) ∧ SamePorts s (tick s)

/-- R254: many ticks at once are the tick repeated, and a timer that holds v is 0 after v ticks and not before. -/
def Obligations.ManyTicksAreTheTickRepeated : Prop :=
  (∀ (n : Nat) (s : State), ticks n s = tick^[n] s) ∧
  ∀ (n : Nat) (s : State), ((tick^[n] s).dt = 0 ↔ s.dt.toNat ≤ n) ∧ ((tick^[n] s).st = 0 ↔ s.st.toNat ≤ n)

/-! ### Control flow (41_control_flow.md) -/

/-- R133: 1NNN, encoded by match 0x1000, sets PC to NNN and changes nothing else. -/
def Obligations.JumpSetsPc : Prop :=
  ∀ (s : State) (nnn : Addr12),
    EncodedAs (.jp nnn) 0x1000 0xF000 (encNNN 0x1000 nnn) ∧ JumpsTo (.jp nnn) s nnn.toNat

/-- R135 (decisions D6, D7, D8): BNNN sets PC to NNN + V0, not masked to 12 bits, and raises nothing itself. -/
def Obligations.JumpV0AddsV0 : Prop :=
  ∀ (s : State) (nnn : Addr12), JumpsTo (.jpV0 nnn) s (nnn.toNat + (s.reg 0).toNat)

/-- R134, R130 (decisions D3, D4): 2NNN stores the advanced PC at SP, high byte at the lower address, adds 2 to SP and
sets PC to NNN; no other byte and no other register changes. -/
def Obligations.CallPushesTheReturnAddress : Prop :=
  ∀ (s : State) (nnn : Addr12), s.sp ≠ 0xEC0 → s.sp.toNat + 1 ≤ 0xFFF →
    Completes (.call nnn) s false fun t =>
      t.pc.toNat = nnn.toNat ∧ t.sp = s.sp + 2 ∧
      (Memory.read t.mem s.sp.toNat).toNat = s.pc.toNat / 256 ∧
      (Memory.read t.mem (s.sp.toNat + 1)).toNat = s.pc.toNat % 256 ∧
      SameMemoryOutside (fun a => a = s.sp.toNat ∨ a = s.sp.toNat + 1) s t ∧
      SameRegs s t ∧ t.i = s.i ∧ SameTimersAndWait s t

/-- R132, R131 (decisions D3, D4): 00EE takes 2 from SP and sets PC to the two bytes now at SP, high byte first; memory
and every other register stay. -/
def Obligations.ReturnPopsPc : Prop :=
  ∀ s : State, s.sp ≠ 0xEA0 → (s.sp - 2).toNat + 1 ≤ 0xFFF →
    Completes .ret s false fun t =>
      t.sp = s.sp - 2 ∧
      t.pc.toNat = (Memory.read s.mem (s.sp - 2).toNat).toNat * 256 + (Memory.read s.mem ((s.sp - 2).toNat + 1)).toNat ∧
      SameMemory s t ∧ SameRegs s t ∧ t.i = s.i ∧ SameTimersAndWait s t

/-- R130, R131, R243, R244: a call with 16 entries on the stack raises StackOverflow, a return with none StackUnderflow;
nothing is changed but the PC advance the step made before. How the error reaches the driver is log 8 and 9. -/
def Obligations.FullCallAndEmptyReturnRaise : Prop :=
  ∀ (s : State) (nnn : Addr12),
    (s.sp = 0xEC0 → Raises (.call nnn) s .stackOverflow (SameMachine s)) ∧
    (s.sp = 0xEA0 → Raises .ret s .stackUnderflow (SameMachine s))

/-- R132, R134 ("2NNN then 00EE restores PC"): whatever happens between a call and its return, if SP and the two bytes of
the entry are as the call left them, the return puts PC after the call and SP back. -/
def Obligations.ReturnAfterCallComesBack : Prop :=
  ∀ (s : State) (nnn : Addr12), spLegal s → s.sp ≠ 0xEC0 →
    ∃ t, exec (.call nnn) s = .next t ∧ t.pc.toNat = nnn.toNat ∧
      ∀ u : State, u.sp = t.sp → Memory.read u.mem s.sp.toNat = Memory.read t.mem s.sp.toNat →
        Memory.read u.mem (s.sp.toNat + 1) = Memory.read t.mem (s.sp.toNat + 1) →
        ∃ w, exec .ret u = .next w ∧ w.pc = s.pc ∧ w.sp = s.sp

/-- R137, R138, and likewise R139, R140: the four register skips, with their encodings, advance PC by a further 2 (R136)
exactly where their condition holds, and change nothing else. -/
def Obligations.RegisterSkipsFollowTheirCondition : Prop :=
  ∀ (s : State) (x y : RegIdx) (nn : Byte),
    EncodedAs (.seImm x nn) 0x3000 0xF000 (encXNN 0x3000 x nn) ∧
    EncodedAs (.sneImm x nn) 0x4000 0xF000 (encXNN 0x4000 x nn) ∧
    EncodedAs (.seReg x y) 0x5000 0xF00F (encXYN 0x5000 x y 0) ∧
    EncodedAs (.sneReg x y) 0x9000 0xF00F (encXYN 0x9000 x y 0) ∧
    SkipsWhen (.seImm x nn) s (s.reg x = nn) ∧ SkipsWhen (.sneImm x nn) s (s.reg x ≠ nn) ∧
    SkipsWhen (.seReg x y) s (s.reg x = s.reg y) ∧ SkipsWhen (.sneReg x y) s (s.reg x ≠ s.reg y)

/-! ### Loads and the ALU (42_load_alu.md) -/

/-- R152 to R156, and likewise R151: 6XNN, 7XNN, 8XY0, 8XY1, 8XY2, 8XY3, with their encodings, write VX only, VF included
among what stays unless it is VX. -/
def Obligations.LoadsAddImmediateAndBitwiseWriteOnlyVx : Prop :=
  ∀ (s : State) (x y : RegIdx) (nn : Byte),
    EncodedAs (.ldImm x nn) 0x6000 0xF000 (encXNN 0x6000 x nn) ∧
    EncodedAs (.addImm x nn) 0x7000 0xF000 (encXNN 0x7000 x nn) ∧
    EncodedAs (.ldReg x y) 0x8000 0xF00F (encXYN 0x8000 x y 0) ∧
    EncodedAs (.orReg x y) 0x8001 0xF00F (encXYN 0x8001 x y 0) ∧
    EncodedAs (.andReg x y) 0x8002 0xF00F (encXYN 0x8002 x y 0) ∧
    EncodedAs (.xorReg x y) 0x8003 0xF00F (encXYN 0x8003 x y 0) ∧
    WritesOnlyVx (.ldImm x nn) s x nn ∧
    WritesOnlyVx (.addImm x nn) s x (BitVec.ofNat 8 (((s.reg x).toNat + nn.toNat) % 256)) ∧
    WritesOnlyVx (.ldReg x y) s x (s.reg y) ∧
    WritesOnlyVx (.orReg x y) s x (s.reg x ||| s.reg y) ∧
    WritesOnlyVx (.andReg x y) s x (s.reg x &&& s.reg y) ∧
    WritesOnlyVx (.xorReg x y) s x (s.reg x ^^^ s.reg y)

/-- R157, R158, R160, R150 (decision D5 for X = F): 8XY4, 8XY5, 8XY7 give the sum and the differences modulo 256 and the
carry and no-borrow flags, both from the operands before; with X = F the flag is what VF holds. -/
def Obligations.AddAndSubtractSetVxThenFlag : Prop :=
  ∀ (s : State) (x y : RegIdx),
    WritesVxThenFlag (.addReg x y) s x (BitVec.ofNat 8 (((s.reg x).toNat + (s.reg y).toNat) % 256))
      ((s.reg x).toNat + (s.reg y).toNat > 255) ∧
    WritesVxThenFlag (.subReg x y) s x (BitVec.ofNat 8 (((s.reg x).toNat + 256 - (s.reg y).toNat) % 256))
      ((s.reg x).toNat ≥ (s.reg y).toNat) ∧
    WritesVxThenFlag (.subnReg x y) s x (BitVec.ofNat 8 (((s.reg y).toNat + 256 - (s.reg x).toNat) % 256))
      ((s.reg y).toNat ≥ (s.reg x).toNat)

/-- R159, R161, R87, R150 (decision D5 for X = F): 8XY6 halves and 8XYE doubles VX, with the bit shifted out in VF,
whatever Y is. -/
def Obligations.ShiftsSetVxThenFlag : Prop :=
  ∀ (s : State) (x y : RegIdx),
    WritesVxThenFlag (.shr x y) s x (BitVec.ofNat 8 ((s.reg x).toNat / 2)) ((s.reg x).toNat % 2 = 1) ∧
    WritesVxThenFlag (.shl x y) s x (BitVec.ofNat 8 (2 * (s.reg x).toNat % 256)) ((s.reg x).toNat / 128 = 1)

/-- R162 (decision D15; log 6): CXNN writes the step's random byte, masked, to VX, whatever that byte is. -/
def Obligations.RandomWritesTheMaskedByte : Prop :=
  ∀ (s : State) (x : RegIdx) (nn r : Byte), WritesOnlyVx (.rnd x nn) (withRnd r s) x (r &&& nn)

/-! ### Index register and data memory (43_index_memory.md) -/

/-- R180, R182: ANNN and FX29, with their encodings, set I to NNN and to VX times 5; nothing else changes. That FX29 does
not mask a VX above 0xF is the spec's choice U6 (log 23). -/
def Obligations.IndexLoadsSetI : Prop :=
  ∀ (s : State) (nnn : Addr12) (x : RegIdx),
    EncodedAs (.ldI nnn) 0xA000 0xF000 (encNNN 0xA000 nnn) ∧
    EncodedAs (.ldF x) 0xF029 0xF0FF (encX 0xF029 x) ∧
    WritesOnlyI (.ldI nnn) s nnn.toNat ∧ WritesOnlyI (.ldF x) s ((s.reg x).toNat * 5)

/-- R181 (decisions D6, D8; D5 for X = F): FX1E stores the sum modulo 65536 and sets VF by the unreduced sum against
0xFFF. -/
def Obligations.AddIndexSetsIAndFlag : Prop :=
  ∀ (s : State) (x : RegIdx),
    Completes (.addI x) s false fun t =>
      t.i.toNat = (s.i.toNat + (s.reg x).toNat) % 65536 ∧
      (s.i.toNat + (s.reg x).toNat > 0xFFF → t.reg 0xF = 1) ∧
      (s.i.toNat + (s.reg x).toNat ≤ 0xFFF → t.reg 0xF = 0) ∧
      SameRegsOutside (· = 0xF) s t ∧ t.pc = s.pc ∧ SameSpecials s t ∧ SameMemory s t

/-- R183 where the three bytes are in memory: the decimal digits of VX at I, I + 1, I + 2; no other byte and no register
changes. -/
def Obligations.DecimalDigitsAreStoredAtI : Prop :=
  ∀ (s : State) (x : RegIdx), s.i.toNat + 2 ≤ 0xFFF →
    Completes (.ldB x) s false fun t =>
      (Memory.read t.mem s.i.toNat).toNat = (s.reg x).toNat / 100 ∧
      (Memory.read t.mem (s.i.toNat + 1)).toNat = (s.reg x).toNat / 10 % 10 ∧
      (Memory.read t.mem (s.i.toNat + 2)).toNat = (s.reg x).toNat % 10 ∧
      SameMemoryOutside (fun a => s.i.toNat ≤ a ∧ a ≤ s.i.toNat + 2) s t ∧
      SameRegs s t ∧ t.i = s.i ∧ t.pc = s.pc ∧ SameSpecials s t

/-- R183, R248 (decision D16): FX33 at the end of memory. The digits stored before the failing byte stay. -/
def Obligations.DecimalDigitsBeyondMemoryRaise : Prop :=
  ∀ (s : State) (x : RegIdx),
    (0xFFF < s.i.toNat → Raises (.ldB x) s (.outOfBounds s.i.toNat) (SameMachine s)) ∧
    (s.i.toNat = 0xFFF → Raises (.ldB x) s (.outOfBounds 0x1000) fun t =>
      (Memory.read t.mem 0xFFF).toNat = (s.reg x).toNat / 100 ∧ SameMemoryOutside (· = 0xFFF) s t ∧
      SameRegs s t ∧ t.i = s.i ∧ t.pc = s.pc ∧ SameSpecials s t) ∧
    (s.i.toNat = 0xFFE → Raises (.ldB x) s (.outOfBounds 0x1000) fun t =>
      (Memory.read t.mem 0xFFE).toNat = (s.reg x).toNat / 100 ∧
      (Memory.read t.mem 0xFFF).toNat = (s.reg x).toNat / 10 % 10 ∧
      SameMemoryOutside (fun a => a = 0xFFE ∨ a = 0xFFF) s t ∧
      SameRegs s t ∧ t.i = s.i ∧ t.pc = s.pc ∧ SameSpecials s t)

/-- R184 where every byte is in memory: V0 to VX go to I, I + 1, …; no other byte, no register and not I changes. -/
def Obligations.RegistersAreStoredFromI : Prop :=
  ∀ (s : State) (x : RegIdx), s.i.toNat + x.toNat ≤ 0xFFF →
    Completes (.stRegs x) s false fun t =>
      (∀ j : RegIdx, j ≤ x → Memory.read t.mem (s.i.toNat + j.toNat) = s.reg j) ∧
      SameMemoryOutside (fun a => s.i.toNat ≤ a ∧ a ≤ s.i.toNat + x.toNat) s t ∧
      SameRegs s t ∧ t.i = s.i ∧ t.pc = s.pc ∧ SameSpecials s t

/-- R184, R248 (decision D16): FX55 at the end of memory raises OutOfBounds of the first byte beyond 0xFFF; the stores
before it stay. -/
def Obligations.RegisterStoreBeyondMemoryRaises : Prop :=
  ∀ (s : State) (x : RegIdx), 0xFFF < s.i.toNat + x.toNat →
    Raises (.stRegs x) s (.outOfBounds (max s.i.toNat 0x1000)) fun t =>
      (∀ j : RegIdx, s.i.toNat + j.toNat ≤ 0xFFF → Memory.read t.mem (s.i.toNat + j.toNat) = s.reg j) ∧
      SameMemoryOutside (fun a => s.i.toNat ≤ a ∧ a ≤ 0xFFF) s t ∧
      SameRegs s t ∧ t.i = s.i ∧ t.pc = s.pc ∧ SameSpecials s t

/-- R185 where every byte is in memory: V0 to VX are loaded from I, I + 1, …; the other registers, I and memory stay. -/
def Obligations.RegistersAreLoadedFromI : Prop :=
  ∀ (s : State) (x : RegIdx), s.i.toNat + x.toNat ≤ 0xFFF →
    Completes (.ldRegs x) s false fun t =>
      (∀ j : RegIdx, j ≤ x → t.reg j = Memory.read s.mem (s.i.toNat + j.toNat)) ∧
      SameRegsOutside (· ≤ x) s t ∧ t.i = s.i ∧ t.pc = s.pc ∧ SameSpecials s t ∧ SameMemory s t

/-- R185, R248 (decision D16): FX65 at the end of memory raises OutOfBounds of the first byte beyond 0xFFF; the registers
loaded before it keep what they got. -/
def Obligations.RegisterLoadBeyondMemoryRaises : Prop :=
  ∀ (s : State) (x : RegIdx), 0xFFF < s.i.toNat + x.toNat →
    Raises (.ldRegs x) s (.outOfBounds (max s.i.toNat 0x1000)) fun t =>
      (∀ j : RegIdx, s.i.toNat + j.toNat ≤ 0xFFF → t.reg j = Memory.read s.mem (s.i.toNat + j.toNat)) ∧
      SameRegsOutside (fun j => s.i.toNat + j.toNat ≤ 0xFFF) s t ∧
      t.i = s.i ∧ t.pc = s.pc ∧ SameSpecials s t ∧ SameMemory s t

/-- R184, R185 ("Round-trip"): FX55, anything that keeps I and memory, then FX65 with the same X restores V0 to VX. -/
def Obligations.StoreThenLoadRestoresTheRegisters : Prop :=
  ∀ (s : State) (x : RegIdx), s.i.toNat + x.toNat ≤ 0xFFF →
    ∃ t, exec (.stRegs x) s = .next t ∧
      ∀ u : State, u.i = t.i → SameMemory t u →
        ∃ w, exec (.ldRegs x) u = .next w ∧ ∀ j : RegIdx, j ≤ x → w.reg j = s.reg j

/-! ### Display (44_display.md, 20_memory.md R61) -/

/-- R200: 00E0, the word 0x00E0, writes 0 to the 256 framebuffer bytes, reports drew, and changes no other byte and no
register. -/
def Obligations.ClearZeroesTheFramebufferOnly : Prop :=
  ∀ s : State,
    EncodedAs .cls 0x00E0 0xFFFF 0x00E0 ∧
    Completes .cls s true fun t =>
      (∀ a, 0xF00 ≤ a → a ≤ 0xFFF → Memory.read t.mem a = 0) ∧
      SameMemoryOutside (fun a => 0xF00 ≤ a ∧ a ≤ 0xFFF) s t ∧
      SameRegs s t ∧ t.i = s.i ∧ t.pc = s.pc ∧ SameSpecials s t

/-- R201, R52 where the sprite's bytes are in memory (N = 0 reads none): DXYN completes, reports drew, and changes VF, to 0
or 1, and the framebuffer bytes under the sprite only; with N = 0 it clears VF and changes no byte. For either EDGE (U1,
log 11). -/
def Obligations.DrawChangesVfAndBytesUnderTheSprite : Prop :=
  ∀ (s : State) (x y : RegIdx) (n : Nibble), SpriteInMemory s n →
    Completes (.drw x y n) s true fun t =>
      (t.reg 0xF = 0 ∨ t.reg 0xF = 1) ∧
      (n = 0 → t.reg 0xF = 0 ∧ SameMemory s t) ∧
      SameMemoryOutside (underSprite s.cfg.edge n.toNat (s.reg x).toNat (s.reg y).toNat) s t ∧
      SameRegsOutside (· = 0xF) s t ∧ t.i = s.i ∧ t.pc = s.pc ∧ SameSpecials s t

/-- R201, R61, R288 (decision D10 for EDGE = clip, U1 and log 11 for wrap; the order of pixels in a byte is decision D11,
log 16). For a sprite none of whose bytes lies under it: each pixel of the screen is its old value XOR the sprite's bit
there, and VF is 1 exactly where a lit pixel was erased. For every sprite in memory, also one in the framebuffer: one row
more XORs that row, its byte read as the rows before it left it, and keeps or sets VF. The coordinates are VX and VY before
the instruction, also with X or Y = F, which is decision D5 (log 13). -/
def Obligations.DrawXorsTheSpriteOntoTheScreen : Prop :=
  (∀ (s : State) (x y : RegIdx) (n : Nibble), SpriteInMemory s n → SpriteApart s x y n →
    ∃ t, exec (.drw x y n) s = .next t ∧
      (∀ px py, px < 64 → py < 32 →
        getPixel t.mem px py =
          (getPixel s.mem px py ^^
            spriteBit s.cfg.edge s.mem s.i.toNat n.toNat (s.reg x).toNat (s.reg y).toNat px py)) ∧
      (t.reg 0xF = 1 ↔
        ∃ px py, px < 64 ∧ py < 32 ∧ getPixel s.mem px py = true ∧
          spriteBit s.cfg.edge s.mem s.i.toNat n.toNat (s.reg x).toNat (s.reg y).toNat px py = true) ∧
      (t.reg 0xF = 0 ∨ t.reg 0xF = 1)) ∧
  ∀ (s : State) (x y : RegIdx) (n : Nibble), n ≠ 0xF → s.i.toNat + n.toNat + 1 ≤ 0x1000 →
    ∃ t u, exec (.drw x y n) s = .next t ∧ exec (.drw x y (n + 1)) s = .next u ∧
      (∀ px py, px < 64 → py < 32 →
        getPixel u.mem px py =
          (getPixel t.mem px py ^^
            spriteBit s.cfg.edge t.mem (s.i.toNat + n.toNat) 1 (s.reg x).toNat ((s.reg y).toNat + n.toNat) px py)) ∧
      (u.reg 0xF = 1 ↔ t.reg 0xF = 1 ∨
        ∃ px py, px < 64 ∧ py < 32 ∧ getPixel t.mem px py = true ∧
          spriteBit s.cfg.edge t.mem (s.i.toNat + n.toNat) 1 (s.reg x).toNat ((s.reg y).toNat + n.toNat) px py = true)

/-- R201, R248 (decision D16): DXYN whose bytes run beyond 0xFFF raises OutOfBounds of the first such byte, and leaves
the machine as the DXYN of only the rows before it does. -/
def Obligations.DrawBeyondMemoryRaises : Prop :=
  ∀ (s : State) (x y : RegIdx) (n : Nibble), n ≠ 0 → 0x1000 < s.i.toNat + n.toNat →
    Raises (.drw x y n) s (.outOfBounds (max s.i.toNat 0x1000)) fun t =>
      ∃ u, exec (.drw x y (BitVec.ofNat 4 (0x1000 - s.i.toNat))) s = .next u ∧
        u.result = .sideEffects true u.waitValid ∧ SameMachine u t

/-- R202, "the double-draw law", for a sprite none of whose bytes lies under it and coordinates not in VF; for either EDGE
(decision D10, U1, log 11): the second of two draws restores memory, and its VF is 1 exactly where the first lit a
pixel. -/
def Obligations.DrawingTwiceRestoresTheScreen : Prop :=
  ∀ (s : State) (x y : RegIdx) (n : Nibble) (pc : Word),
    x ≠ 0xF → y ≠ 0xF → SpriteInMemory s n → SpriteApart s x y n →
    ∃ t u, exec (.drw x y n) s = .next t ∧ exec (.drw x y n) (t.setPc pc) = .next u ∧ SameMemory s u ∧
      (u.reg 0xF = 1 ↔
        ∃ px py, px < 64 ∧ py < 32 ∧ getPixel s.mem px py = false ∧ getPixel t.mem px py = true) ∧
      (u.reg 0xF = 0 ∨ u.reg 0xF = 1)

/-- R61 (decision D11, log 16): pixel (x, y) of the screen is bit 7 - x mod 8 of byte 0xF00 + 8 y + x div 8, a framebuffer
byte; toggling it flips that pixel and no other, and changes no other byte. -/
def Obligations.TogglingAPixelFlipsThatPixelOnly : Prop :=
  ∀ (m : Memory) (x y : Nat), x < 64 → y < 32 →
    getPixel m x y = (Memory.read m (0xF00 + 8 * y + x / 8)).getLsbD (7 - x % 8) ∧
    fbAddr x y = 0xF00 + 8 * y + x / 8 ∧ fbAddr x y ≤ 0xFFF ∧
    (∀ x' y', x' < 64 → y' < 32 →
      getPixel (togglePixel m x y) x' y' = (getPixel m x' y' ^^ (decide (x' = x) && decide (y' = y)))) ∧
    ∀ a, a ≠ fbAddr x y → Memory.read (togglePixel m x y) a = Memory.read m a

/-- R66, R256 (decisions D22, D27): the outputs. The view is the 256 bytes from 0xF00; sound is active while ST is not
0. -/
def Obligations.OutputsShowFramebufferAndSound : Prop :=
  ∀ s : State,
    (framebufferBytes s).length = 256 ∧
    (∀ j, j < 256 → (framebufferBytes s)[j]? = some (Memory.read s.mem (0xF00 + j))) ∧
    (soundActive s = true ↔ s.st.toNat ≠ 0)

/-! ### Keys and timers (45_keys_timers.md) -/

/-- R220, R221, R222 (decision D14 for VX above 0xF): EX9E skips exactly where the key the low 4 bits of VX select is down,
EXA1 where it is up; nothing else changes. -/
def Obligations.KeySkipsFollowTheSelectedKey : Prop :=
  ∀ (s : State) (x : RegIdx),
    SkipsWhen (.skp x) s (s.keys.getLsbD ((s.reg x).toNat % 16) = true) ∧
    SkipsWhen (.sknp x) s (s.keys.getLsbD ((s.reg x).toNat % 16) = false)

/-- R223, R220 (decisions D12, D13): FX0A with a key down writes the least one to VX and nothing else; with none down it
enters the wait for X and writes nothing else. -/
def Obligations.KeyWaitTakesAKeyOrWaits : Prop :=
  ∀ (s : State) (x : RegIdx),
    (∀ k, k < 16 → s.keys.getLsbD k = true → (∀ j, j < k → s.keys.getLsbD j = false) →
      WritesOnlyVx (.ldVxK x) s x (BitVec.ofNat 8 k)) ∧
    (s.keys = 0 → Completes (.ldVxK x) s false fun t =>
      t.waitValid = true ∧ t.waitReg = x ∧ SameRegs s t ∧ t.i = s.i ∧ t.pc = s.pc ∧ t.sp = s.sp ∧ t.dt = s.dt ∧
      t.st = s.st ∧ SameMemory s t)

/-- R224, R225, R226: with their encodings, FX07 copies DT to VX, FX15 VX to DT, FX18 VX to ST; nothing else changes. -/
def Obligations.TimerInstructionsCopyOneByte : Prop :=
  ∀ (s : State) (x : RegIdx),
    EncodedAs (.ldVxDt x) 0xF007 0xF0FF (encX 0xF007 x) ∧ EncodedAs (.ldDtVx x) 0xF015 0xF0FF (encX 0xF015 x) ∧
    EncodedAs (.ldStVx x) 0xF018 0xF0FF (encX 0xF018 x) ∧
    WritesOnlyVx (.ldVxDt x) s x s.dt ∧
    (Completes (.ldDtVx x) s false fun t =>
      t.dt = s.reg x ∧ t.st = s.st ∧ t.sp = s.sp ∧ t.waitValid = s.waitValid ∧ t.waitReg = s.waitReg ∧
      SameRegs s t ∧ t.i = s.i ∧ t.pc = s.pc ∧ SameMemory s t) ∧
    (Completes (.ldStVx x) s false fun t =>
      t.st = s.reg x ∧ t.dt = s.dt ∧ t.sp = s.sp ∧ t.waitValid = s.waitValid ∧ t.waitReg = s.waitReg ∧
      SameRegs s t ∧ t.i = s.i ∧ t.pc = s.pc ∧ SameMemory s t)

/-! ### Initialisation (70_reset_and_hazards.md, 10_state.md R33, R34) -/

/-- R33, R34, R280: the values the spec gives the machine after initialisation, at `State.reset` (WAIT.valid is the spec's
decision D24; that its FONT is the default table is log 4). -/
def Obligations.ResetHasTheValuesTheSpecGives : Prop :=
  State.reset.pc = 0x200 ∧ State.reset.dt = 0 ∧ State.reset.st = 0 ∧ State.reset.sp = 0xEA0 ∧
  State.reset.waitValid = false ∧ State.reset.cfg.font = defaultFont ∧
  ∀ (a : Nat) (h : a < 80), Memory.read State.reset.mem a = State.reset.cfg.font[a]

/-- R280, R281, R282, R33, R34, R62 (decisions D23, D24, D2, D26): for every value of the open parameters, every FONT and
every program image of at most 3232 bytes, initialisation gives the machine the registers, the font, the image at 0x200,
and the background elsewhere. -/
def Obligations.InitialiseLoadsFontAndProgram : Prop :=
  ∀ (p : ResetParams) (rom : List Byte), rom.length ≤ 3232 →
    ∃ t, initialise p rom = .next t ∧
      t.pc = 0x200 ∧ t.dt = 0 ∧ t.st = 0 ∧ t.sp = 0xEA0 ∧ t.waitValid = false ∧ t.v = p.resetV ∧ t.i = p.resetI ∧
      t.cfg = p.cfg ∧ (∀ (a : Nat) (h : a < 80), Memory.read t.mem a = p.cfg.font[a]) ∧
      (∀ j, j < rom.length → some (Memory.read t.mem (0x200 + j)) = rom[j]?) ∧
      ∀ a, 80 ≤ a → (a < 0x200 ∨ 0x200 + rom.length ≤ a) → Memory.read t.mem a = Memory.read p.resetMem a

/-- R245, R282 (decision D23): a longer image is refused with RomTooLarge, and loading it changes nothing; a machine so
refused is not runnable, so the answer is a fault whatever the driver's policy. -/
def Obligations.TooLargeAProgramIsRefused : Prop :=
  ∀ (p : ResetParams) (s : State) (rom : List Byte), 3232 < rom.length →
    initialise p rom = .fault .romTooLarge ∧ loadRom rom s = .fault .romTooLarge

/-! ### Invariants (10_state.md R32) -/

/-- R32, R33, R280: the invariant holds at `State.reset` and wherever a loaded program starts: after every initialisation
that is not refused, whatever the open parameters (RESET_MEM in canonical form), the font and the image. -/
def Obligations.ResetMeetsTheInvariant : Prop :=
  Inv State.reset ∧
  ∀ (p : ResetParams) (rom : List Byte), Memory.wf p.resetMem = true → rom.length ≤ 3232 →
    ∃ t, initialise p rom = .next t ∧ Inv t

/-- R32: every step keeps the invariant: memory stays in its canonical form within 0x000 to 0xFFF, SP stays one of its 17
legal values, and while a key is awaited PC is the address of the waiting FX0A plus 2. Steps that return an error are
among them (R118). -/
def Obligations.EveryStepKeepsTheInvariant : Prop :=
  ∀ s t : State, Inv s → step s = .next t → Inv t

/-- R32, R253: so does every tick. -/
def Obligations.TickKeepsTheInvariant : Prop := ∀ s : State, Inv s → Inv (tick s)

/-! ### Whole-machine rules -/

/-- R20's table, R21: no instruction changes a general register the table does not give it, in a state it completes in or
in one an error leaves. -/
def Obligations.RegistersChangeOnlyAsTabled : Prop :=
  ∀ (i : Instr) (s t : State) (j : RegIdx), exec i s = .next t → ¬ writesReg i j → t.reg j = s.reg j

/-- R21: every instruction that documents a flag effect leaves VF 0 or 1, whatever VF held (an error's state included). -/
def Obligations.FlagInstructionsAlwaysOverwriteVf : Prop :=
  ∀ (i : Instr) (s t : State), setsFlag i → exec i s = .next t → t.reg 0xF = 0 ∨ t.reg 0xF = 1

/-- R22, R24, R25, R26, R27, R31: I, DT, ST, SP and the wait latch are changed by no instruction but their writers. -/
def Obligations.SpecialRegistersChangeOnlyByTheirWriters : Prop :=
  ∀ (i : Instr) (s t : State), exec i s = .next t →
    (t.i ≠ s.i → (∃ nnn, i = .ldI nnn) ∨ (∃ x, i = .addI x) ∨ ∃ x, i = .ldF x) ∧
    (t.dt ≠ s.dt → ∃ x, i = .ldDtVx x) ∧ (t.st ≠ s.st → ∃ x, i = .ldStVx x) ∧
    (t.sp ≠ s.sp → i = .ret ∨ ∃ nnn, i = .call nnn) ∧
    ((t.waitValid ≠ s.waitValid ∨ t.waitReg ≠ s.waitReg) → ∃ x, i = .ldVxK x)

/-- R31, R59, R67: no instruction but 00E0, 2NNN, DXYN, FX33 and FX55 changes a byte of memory, and no instruction changes
the model's input fields or the configuration. -/
def Obligations.MemoryChangesOnlyByStoringInstructions : Prop :=
  ∀ (i : Instr) (s t : State), exec i s = .next t →
    (¬ writesMemory i → SameMemory s t) ∧ SamePorts s t

/-- R23: PC stays at the instruction's address plus 2 but for jumps, calls, returns, and the skips, which add 2 or
nothing. -/
def Obligations.PcChangesOnlyByControlTransfer : Prop :=
  ∀ (i : Instr) (s t : State), exec i s = .next t → t.pc ≠ s.pc →
    i = .ret ∨ (∃ nnn, i = .jp nnn ∨ i = .call nnn ∨ i = .jpV0 nnn) ∨
    (t.pc = s.pc + 2 ∧ ∃ x y nn, i = .seImm x nn ∨ i = .sneImm x nn ∨ i = .seReg x y ∨ i = .sneReg x y ∨ i = .skp x ∨
      i = .sknp x)

/-- R29: an instruction that is none of EX9E, EXA1, FX0A does the same under every key snapshot. -/
def Obligations.OtherInstructionsIgnoreTheKeys : Prop :=
  ∀ (i : Instr) (s : State) (k : BitVec 16), ¬ readsKeys i →
    exec i (withKeys k s) = mapNext (withKeys k) (exec i s)

/-- R29: an instruction that is not CXNN does the same under every random byte. -/
def Obligations.OtherInstructionsIgnoreTheRandomByte : Prop :=
  ∀ (i : Instr) (s : State) (r : Byte), (∀ x nn, i ≠ .rnd x nn) →
    exec i (withRnd r s) = mapNext (withRnd r) (exec i s)

/-- R242, R243, R244, R249, with SP legal (R32): an instruction raises only the kind of error the spec gives it, and an
OutOfBounds address is 0x1000 to 0xFFFF (R53). -/
def Obligations.InstructionsRaiseOnlyTheirOwnErrors : Prop :=
  ∀ (i : Instr) (s : State) (e : Fault), spLegal s →
    (exec i s = .fault e ∨ ∃ t, exec i s = .next t ∧ t.result = .error e) → mayRaise i e
end

