-- ==== Sys2Proof/Laws/State.lean ====
section
/-! SUPPORT. One lemma per field per update, each true by unfolding, so that no later proof unfolds a record update. -/

namespace Sys2Proof.Laws

open Sys2Proof.Machine

section Updates

variable (s : State)

/-! `setI` -/

@[simp] theorem setI_v (w : Word) : (s.setI w).v = s.v := rfl
@[simp] theorem setI_i (w : Word) : (s.setI w).i = w := rfl
@[simp] theorem setI_pc (w : Word) : (s.setI w).pc = s.pc := rfl
@[simp] theorem setI_dt (w : Word) : (s.setI w).dt = s.dt := rfl
@[simp] theorem setI_st (w : Word) : (s.setI w).st = s.st := rfl
@[simp] theorem setI_sp (w : Word) : (s.setI w).sp = s.sp := rfl
@[simp] theorem setI_waitValid (w : Word) : (s.setI w).waitValid = s.waitValid := rfl
@[simp] theorem setI_waitReg (w : Word) : (s.setI w).waitReg = s.waitReg := rfl
@[simp] theorem setI_mem (w : Word) : (s.setI w).mem = s.mem := rfl
@[simp] theorem setI_keys (w : Word) : (s.setI w).keys = s.keys := rfl
@[simp] theorem setI_rnd (w : Word) : (s.setI w).rnd = s.rnd := rfl
@[simp] theorem setI_inputs (w : Word) : (s.setI w).inputs = s.inputs := rfl
@[simp] theorem setI_drawn (w : Word) : (s.setI w).drawn = s.drawn := rfl
@[simp] theorem setI_result (w : Word) : (s.setI w).result = s.result := rfl
@[simp] theorem setI_cfg (w : Word) : (s.setI w).cfg = s.cfg := rfl

/-! `setPc` -/

@[simp] theorem setPc_v (w : Word) : (s.setPc w).v = s.v := rfl
@[simp] theorem setPc_i (w : Word) : (s.setPc w).i = s.i := rfl
@[simp] theorem setPc_pc (w : Word) : (s.setPc w).pc = w := rfl
@[simp] theorem setPc_dt (w : Word) : (s.setPc w).dt = s.dt := rfl
@[simp] theorem setPc_st (w : Word) : (s.setPc w).st = s.st := rfl
@[simp] theorem setPc_sp (w : Word) : (s.setPc w).sp = s.sp := rfl
@[simp] theorem setPc_waitValid (w : Word) : (s.setPc w).waitValid = s.waitValid := rfl
@[simp] theorem setPc_waitReg (w : Word) : (s.setPc w).waitReg = s.waitReg := rfl
@[simp] theorem setPc_mem (w : Word) : (s.setPc w).mem = s.mem := rfl
@[simp] theorem setPc_keys (w : Word) : (s.setPc w).keys = s.keys := rfl
@[simp] theorem setPc_rnd (w : Word) : (s.setPc w).rnd = s.rnd := rfl
@[simp] theorem setPc_inputs (w : Word) : (s.setPc w).inputs = s.inputs := rfl
@[simp] theorem setPc_drawn (w : Word) : (s.setPc w).drawn = s.drawn := rfl
@[simp] theorem setPc_result (w : Word) : (s.setPc w).result = s.result := rfl
@[simp] theorem setPc_cfg (w : Word) : (s.setPc w).cfg = s.cfg := rfl

/-! `setSp` -/

@[simp] theorem setSp_v (w : Word) : (s.setSp w).v = s.v := rfl
@[simp] theorem setSp_i (w : Word) : (s.setSp w).i = s.i := rfl
@[simp] theorem setSp_pc (w : Word) : (s.setSp w).pc = s.pc := rfl
@[simp] theorem setSp_dt (w : Word) : (s.setSp w).dt = s.dt := rfl
@[simp] theorem setSp_st (w : Word) : (s.setSp w).st = s.st := rfl
@[simp] theorem setSp_sp (w : Word) : (s.setSp w).sp = w := rfl
@[simp] theorem setSp_waitValid (w : Word) : (s.setSp w).waitValid = s.waitValid := rfl
@[simp] theorem setSp_waitReg (w : Word) : (s.setSp w).waitReg = s.waitReg := rfl
@[simp] theorem setSp_mem (w : Word) : (s.setSp w).mem = s.mem := rfl
@[simp] theorem setSp_keys (w : Word) : (s.setSp w).keys = s.keys := rfl
@[simp] theorem setSp_rnd (w : Word) : (s.setSp w).rnd = s.rnd := rfl
@[simp] theorem setSp_inputs (w : Word) : (s.setSp w).inputs = s.inputs := rfl
@[simp] theorem setSp_drawn (w : Word) : (s.setSp w).drawn = s.drawn := rfl
@[simp] theorem setSp_result (w : Word) : (s.setSp w).result = s.result := rfl
@[simp] theorem setSp_cfg (w : Word) : (s.setSp w).cfg = s.cfg := rfl

/-! `setDt` -/

@[simp] theorem setDt_v (b : Byte) : (s.setDt b).v = s.v := rfl
@[simp] theorem setDt_i (b : Byte) : (s.setDt b).i = s.i := rfl
@[simp] theorem setDt_pc (b : Byte) : (s.setDt b).pc = s.pc := rfl
@[simp] theorem setDt_dt (b : Byte) : (s.setDt b).dt = b := rfl
@[simp] theorem setDt_st (b : Byte) : (s.setDt b).st = s.st := rfl
@[simp] theorem setDt_sp (b : Byte) : (s.setDt b).sp = s.sp := rfl
@[simp] theorem setDt_waitValid (b : Byte) : (s.setDt b).waitValid = s.waitValid := rfl
@[simp] theorem setDt_waitReg (b : Byte) : (s.setDt b).waitReg = s.waitReg := rfl
@[simp] theorem setDt_mem (b : Byte) : (s.setDt b).mem = s.mem := rfl
@[simp] theorem setDt_keys (b : Byte) : (s.setDt b).keys = s.keys := rfl
@[simp] theorem setDt_rnd (b : Byte) : (s.setDt b).rnd = s.rnd := rfl
@[simp] theorem setDt_inputs (b : Byte) : (s.setDt b).inputs = s.inputs := rfl
@[simp] theorem setDt_drawn (b : Byte) : (s.setDt b).drawn = s.drawn := rfl
@[simp] theorem setDt_result (b : Byte) : (s.setDt b).result = s.result := rfl
@[simp] theorem setDt_cfg (b : Byte) : (s.setDt b).cfg = s.cfg := rfl

/-! `setSt` -/

@[simp] theorem setSt_v (b : Byte) : (s.setSt b).v = s.v := rfl
@[simp] theorem setSt_i (b : Byte) : (s.setSt b).i = s.i := rfl
@[simp] theorem setSt_pc (b : Byte) : (s.setSt b).pc = s.pc := rfl
@[simp] theorem setSt_dt (b : Byte) : (s.setSt b).dt = s.dt := rfl
@[simp] theorem setSt_st (b : Byte) : (s.setSt b).st = b := rfl
@[simp] theorem setSt_sp (b : Byte) : (s.setSt b).sp = s.sp := rfl
@[simp] theorem setSt_waitValid (b : Byte) : (s.setSt b).waitValid = s.waitValid := rfl
@[simp] theorem setSt_waitReg (b : Byte) : (s.setSt b).waitReg = s.waitReg := rfl
@[simp] theorem setSt_mem (b : Byte) : (s.setSt b).mem = s.mem := rfl
@[simp] theorem setSt_keys (b : Byte) : (s.setSt b).keys = s.keys := rfl
@[simp] theorem setSt_rnd (b : Byte) : (s.setSt b).rnd = s.rnd := rfl
@[simp] theorem setSt_inputs (b : Byte) : (s.setSt b).inputs = s.inputs := rfl
@[simp] theorem setSt_drawn (b : Byte) : (s.setSt b).drawn = s.drawn := rfl
@[simp] theorem setSt_result (b : Byte) : (s.setSt b).result = s.result := rfl
@[simp] theorem setSt_cfg (b : Byte) : (s.setSt b).cfg = s.cfg := rfl

/-! `setWait` -/

@[simp] theorem setWait_v (c : Bool) (j : RegIdx) : (s.setWait c j).v = s.v := rfl
@[simp] theorem setWait_i (c : Bool) (j : RegIdx) : (s.setWait c j).i = s.i := rfl
@[simp] theorem setWait_pc (c : Bool) (j : RegIdx) : (s.setWait c j).pc = s.pc := rfl
@[simp] theorem setWait_dt (c : Bool) (j : RegIdx) : (s.setWait c j).dt = s.dt := rfl
@[simp] theorem setWait_st (c : Bool) (j : RegIdx) : (s.setWait c j).st = s.st := rfl
@[simp] theorem setWait_sp (c : Bool) (j : RegIdx) : (s.setWait c j).sp = s.sp := rfl
@[simp] theorem setWait_waitValid (c : Bool) (j : RegIdx) : (s.setWait c j).waitValid = c := rfl
@[simp] theorem setWait_waitReg (c : Bool) (j : RegIdx) : (s.setWait c j).waitReg = j := rfl
@[simp] theorem setWait_mem (c : Bool) (j : RegIdx) : (s.setWait c j).mem = s.mem := rfl
@[simp] theorem setWait_keys (c : Bool) (j : RegIdx) : (s.setWait c j).keys = s.keys := rfl
@[simp] theorem setWait_rnd (c : Bool) (j : RegIdx) : (s.setWait c j).rnd = s.rnd := rfl
@[simp] theorem setWait_inputs (c : Bool) (j : RegIdx) : (s.setWait c j).inputs = s.inputs := rfl
@[simp] theorem setWait_drawn (c : Bool) (j : RegIdx) : (s.setWait c j).drawn = s.drawn := rfl
@[simp] theorem setWait_result (c : Bool) (j : RegIdx) : (s.setWait c j).result = s.result := rfl
@[simp] theorem setWait_cfg (c : Bool) (j : RegIdx) : (s.setWait c j).cfg = s.cfg := rfl

/-! `setMem` -/

@[simp] theorem setMem_v (m : Memory) : (s.setMem m).v = s.v := rfl
@[simp] theorem setMem_i (m : Memory) : (s.setMem m).i = s.i := rfl
@[simp] theorem setMem_pc (m : Memory) : (s.setMem m).pc = s.pc := rfl
@[simp] theorem setMem_dt (m : Memory) : (s.setMem m).dt = s.dt := rfl
@[simp] theorem setMem_st (m : Memory) : (s.setMem m).st = s.st := rfl
@[simp] theorem setMem_sp (m : Memory) : (s.setMem m).sp = s.sp := rfl
@[simp] theorem setMem_waitValid (m : Memory) : (s.setMem m).waitValid = s.waitValid := rfl
@[simp] theorem setMem_waitReg (m : Memory) : (s.setMem m).waitReg = s.waitReg := rfl
@[simp] theorem setMem_mem (m : Memory) : (s.setMem m).mem = m := rfl
@[simp] theorem setMem_keys (m : Memory) : (s.setMem m).keys = s.keys := rfl
@[simp] theorem setMem_rnd (m : Memory) : (s.setMem m).rnd = s.rnd := rfl
@[simp] theorem setMem_inputs (m : Memory) : (s.setMem m).inputs = s.inputs := rfl
@[simp] theorem setMem_drawn (m : Memory) : (s.setMem m).drawn = s.drawn := rfl
@[simp] theorem setMem_result (m : Memory) : (s.setMem m).result = s.result := rfl
@[simp] theorem setMem_cfg (m : Memory) : (s.setMem m).cfg = s.cfg := rfl

/-! `setResult` -/

@[simp] theorem setResult_v (r : StepResult) : (s.setResult r).v = s.v := rfl
@[simp] theorem setResult_i (r : StepResult) : (s.setResult r).i = s.i := rfl
@[simp] theorem setResult_pc (r : StepResult) : (s.setResult r).pc = s.pc := rfl
@[simp] theorem setResult_dt (r : StepResult) : (s.setResult r).dt = s.dt := rfl
@[simp] theorem setResult_st (r : StepResult) : (s.setResult r).st = s.st := rfl
@[simp] theorem setResult_sp (r : StepResult) : (s.setResult r).sp = s.sp := rfl
@[simp] theorem setResult_waitValid (r : StepResult) : (s.setResult r).waitValid = s.waitValid := rfl
@[simp] theorem setResult_waitReg (r : StepResult) : (s.setResult r).waitReg = s.waitReg := rfl
@[simp] theorem setResult_mem (r : StepResult) : (s.setResult r).mem = s.mem := rfl
@[simp] theorem setResult_keys (r : StepResult) : (s.setResult r).keys = s.keys := rfl
@[simp] theorem setResult_rnd (r : StepResult) : (s.setResult r).rnd = s.rnd := rfl
@[simp] theorem setResult_inputs (r : StepResult) : (s.setResult r).inputs = s.inputs := rfl
@[simp] theorem setResult_drawn (r : StepResult) : (s.setResult r).drawn = s.drawn := rfl
@[simp] theorem setResult_result (r : StepResult) : (s.setResult r).result = r := rfl
@[simp] theorem setResult_cfg (r : StepResult) : (s.setResult r).cfg = s.cfg := rfl

/-! `setReg` -/

@[simp] theorem setReg_i (j : RegIdx) (b : Byte) : (s.setReg j b).i = s.i := rfl
@[simp] theorem setReg_pc (j : RegIdx) (b : Byte) : (s.setReg j b).pc = s.pc := rfl
@[simp] theorem setReg_dt (j : RegIdx) (b : Byte) : (s.setReg j b).dt = s.dt := rfl
@[simp] theorem setReg_st (j : RegIdx) (b : Byte) : (s.setReg j b).st = s.st := rfl
@[simp] theorem setReg_sp (j : RegIdx) (b : Byte) : (s.setReg j b).sp = s.sp := rfl
@[simp] theorem setReg_waitValid (j : RegIdx) (b : Byte) : (s.setReg j b).waitValid = s.waitValid := rfl
@[simp] theorem setReg_waitReg (j : RegIdx) (b : Byte) : (s.setReg j b).waitReg = s.waitReg := rfl
@[simp] theorem setReg_mem (j : RegIdx) (b : Byte) : (s.setReg j b).mem = s.mem := rfl
@[simp] theorem setReg_keys (j : RegIdx) (b : Byte) : (s.setReg j b).keys = s.keys := rfl
@[simp] theorem setReg_rnd (j : RegIdx) (b : Byte) : (s.setReg j b).rnd = s.rnd := rfl
@[simp] theorem setReg_inputs (j : RegIdx) (b : Byte) : (s.setReg j b).inputs = s.inputs := rfl
@[simp] theorem setReg_drawn (j : RegIdx) (b : Byte) : (s.setReg j b).drawn = s.drawn := rfl
@[simp] theorem setReg_result (j : RegIdx) (b : Byte) : (s.setReg j b).result = s.result := rfl
@[simp] theorem setReg_cfg (j : RegIdx) (b : Byte) : (s.setReg j b).cfg = s.cfg := rfl

/-! `setFlag` -/

@[simp] theorem setFlag_i (c : Bool) : (s.setFlag c).i = s.i := rfl
@[simp] theorem setFlag_pc (c : Bool) : (s.setFlag c).pc = s.pc := rfl
@[simp] theorem setFlag_dt (c : Bool) : (s.setFlag c).dt = s.dt := rfl
@[simp] theorem setFlag_st (c : Bool) : (s.setFlag c).st = s.st := rfl
@[simp] theorem setFlag_sp (c : Bool) : (s.setFlag c).sp = s.sp := rfl
@[simp] theorem setFlag_waitValid (c : Bool) : (s.setFlag c).waitValid = s.waitValid := rfl
@[simp] theorem setFlag_waitReg (c : Bool) : (s.setFlag c).waitReg = s.waitReg := rfl
@[simp] theorem setFlag_mem (c : Bool) : (s.setFlag c).mem = s.mem := rfl
@[simp] theorem setFlag_keys (c : Bool) : (s.setFlag c).keys = s.keys := rfl
@[simp] theorem setFlag_rnd (c : Bool) : (s.setFlag c).rnd = s.rnd := rfl
@[simp] theorem setFlag_inputs (c : Bool) : (s.setFlag c).inputs = s.inputs := rfl
@[simp] theorem setFlag_drawn (c : Bool) : (s.setFlag c).drawn = s.drawn := rfl
@[simp] theorem setFlag_result (c : Bool) : (s.setFlag c).result = s.result := rfl
@[simp] theorem setFlag_cfg (c : Bool) : (s.setFlag c).cfg = s.cfg := rfl

/-! Registers through every update -/

@[simp] theorem setI_reg (w : Word) (j : RegIdx) : (s.setI w).reg j = s.reg j := rfl
@[simp] theorem setPc_reg (w : Word) (j : RegIdx) : (s.setPc w).reg j = s.reg j := rfl
@[simp] theorem setSp_reg (w : Word) (j : RegIdx) : (s.setSp w).reg j = s.reg j := rfl
@[simp] theorem setDt_reg (b : Byte) (j : RegIdx) : (s.setDt b).reg j = s.reg j := rfl
@[simp] theorem setSt_reg (b : Byte) (j : RegIdx) : (s.setSt b).reg j = s.reg j := rfl
@[simp] theorem setWait_reg (c : Bool) (k : RegIdx) (j : RegIdx) : (s.setWait c k).reg j = s.reg j := rfl
@[simp] theorem setMem_reg (m : Memory) (j : RegIdx) : (s.setMem m).reg j = s.reg j := rfl
@[simp] theorem setResult_reg (r : StepResult) (j : RegIdx) : (s.setResult r).reg j = s.reg j := rfl

/-- Reading a register after a register write (R8). -/
@[simp] theorem setReg_reg (k : RegIdx) (b : Byte) (j : RegIdx) :
    (s.setReg k b).reg j = if j = k then b else s.reg j := by
  simp [State.reg, State.setReg, Vector.getElem_set, BitVec.toNat_inj, eq_comm]

@[simp] theorem setFlag_reg (c : Bool) (j : RegIdx) :
    (s.setFlag c).reg j = if j = vf then flagByte c else s.reg j := setReg_reg s vf (flagByte c) j

end Updates

end Sys2Proof.Laws
end

