-- ==== Sys2Proof/Laws/Memory.lean ====
section
/-! SUPPORT. The laws of memory: a read after a write, in every memory; every write keeps the canonical form; equal
readings make equal canonical memories. -/

namespace Sys2Proof.Laws

open Sys2Proof.Machine

theorem read_erase (m : Memory) (a a' : Nat) :
    Memory.read (Memory.erase m a) a' = if a' = a then unlistedByte a' else Memory.read m a' := by
  induction m with
  | nil => simp [Memory.erase, Memory.read]
  | cons c rest ih =>
    obtain ⟨k, b⟩ := c
    by_cases h : k = a
    · subst h
      simp only [Memory.erase, if_true, ih, Memory.read]
      by_cases h' : a' = k
      · simp [h']
      · simp [h', Ne.symm h']
    · simp only [Memory.erase, h, if_false, Memory.read, ih]
      by_cases h' : k = a'
      · subst h'; simp [h]
      · simp [h']

theorem read_insert (m : Memory) (a : Nat) (b : Byte) (a' : Nat) (h : ∀ c ∈ m, c.1 ≠ a) :
    Memory.read (Memory.insert m a b) a' = if a' = a then b else Memory.read m a' := by
  induction m with
  | nil => simp [Memory.insert, Memory.read, eq_comm]
  | cons c rest ih =>
    obtain ⟨k, c⟩ := c
    have hk : k ≠ a := h (k, c) (by simp)
    have ih := ih fun c hc => h c (by simp [hc])
    by_cases h1 : a < k
    · simp [Memory.insert, h1, Memory.read, eq_comm]
    · simp only [Memory.insert, h1, if_false, Memory.read, ih]
      by_cases h2 : k = a'
      · subst h2; simp [hk]
      · simp [h2]

theorem erase_ne (m : Memory) (a : Nat) : ∀ c ∈ Memory.erase m a, c.1 ≠ a := by
  induction m with
  | nil => simp [Memory.erase]
  | cons c rest ih =>
    obtain ⟨k, b⟩ := c
    by_cases h : k = a
    · simpa [Memory.erase, h] using ih
    · simpa [Memory.erase, h] using ih

/-- A read after a write, in every memory: the byte written at its address, the old byte elsewhere (R60). -/
@[simp] theorem read_write (m : Memory) (a : Nat) (b : Byte) (a' : Nat) :
    Memory.read (Memory.write m a b) a' = if a' = a then b else Memory.read m a' := by
  unfold Memory.write
  split
  · rename_i h
    rw [read_erase]
    by_cases h' : a' = a
    · subst h'; simp [h]
    · simp [h']
  · rw [read_insert _ _ _ _ (erase_ne m a), read_erase]
    by_cases h' : a' = a <;> simp [h']

/-- A read after a run of writes at rising addresses. -/
theorem read_writeAll (bs : List Byte) (m : Memory) (a a' : Nat) :
    Memory.read (Memory.writeAll m a bs) a' =
      if a ≤ a' ∧ a' < a + bs.length then bs.getD (a' - a) 0 else Memory.read m a' := by
  induction bs generalizing m a with
  | nil => simp [Memory.writeAll]
  | cons b bs ih =>
    simp only [Memory.writeAll, ih, read_write, List.length_cons]
    by_cases h : a' = a
    · subst h; simp
    · by_cases h1 : a + 1 ≤ a' ∧ a' < a + 1 + bs.length
      · have : a' - a = (a' - (a + 1)) + 1 := by omega
        rw [if_pos h1, if_pos (by omega), this, List.getD_cons_succ]
      · rw [if_neg h1, if_neg h, if_neg (by omega)]

theorem wfFrom_mono {lo lo' : Nat} {m : Memory} (h : Memory.wfFrom lo m = true) (hl : lo' ≤ lo) :
    Memory.wfFrom lo' m = true := by
  cases m with
  | nil => rfl
  | cons c rest =>
    obtain ⟨k, b⟩ := c
    simp only [Memory.wfFrom, Bool.and_eq_true, decide_eq_true_eq] at h ⊢
    exact ⟨⟨⟨by omega, h.1.1.2⟩, h.1.2⟩, h.2⟩

theorem wfFrom_erase {m : Memory} (a : Nat) : ∀ {lo : Nat}, Memory.wfFrom lo m = true →
    Memory.wfFrom lo (Memory.erase m a) = true := by
  induction m with
  | nil => intro lo _; rfl
  | cons c rest ih =>
    obtain ⟨k, b⟩ := c
    intro lo h
    simp only [Memory.wfFrom, Bool.and_eq_true, decide_eq_true_eq] at h
    by_cases hk : k = a
    · simp only [Memory.erase, hk, if_true]
      exact wfFrom_mono (ih h.2) (by omega)
    · simp only [Memory.erase, hk, if_false, Memory.wfFrom, Bool.and_eq_true, decide_eq_true_eq]
      exact ⟨h.1, ih h.2⟩

theorem wfFrom_insert {m : Memory} {a : Nat} {b : Byte} (ha : a < memSize) (hb : b ≠ unlistedByte a)
    (hm : ∀ c ∈ m, c.1 ≠ a) :
    ∀ {lo : Nat}, lo ≤ a → Memory.wfFrom lo m = true → Memory.wfFrom lo (Memory.insert m a b) = true := by
  induction m with
  | nil => intro lo hl _; simp [Memory.insert, Memory.wfFrom, hl, ha, hb]
  | cons c rest ih =>
    obtain ⟨k, c⟩ := c
    intro lo hl h
    have hk : k ≠ a := hm (k, c) (by simp)
    simp only [Memory.wfFrom, Bool.and_eq_true, decide_eq_true_eq] at h
    by_cases h1 : a < k
    · simp only [Memory.insert, h1, if_true, Memory.wfFrom, Bool.and_eq_true, decide_eq_true_eq]
      exact ⟨⟨⟨hl, ha⟩, hb⟩, ⟨⟨by omega, h.1.1.2⟩, h.1.2⟩, h.2⟩
    · simp only [Memory.insert, h1, if_false, Memory.wfFrom, Bool.and_eq_true, decide_eq_true_eq]
      exact ⟨h.1, ih (fun c hc => hm c (by simp [hc])) (by omega) h.2⟩

/-- Writing a byte within the address space keeps the canonical form. -/
theorem wf_write {m : Memory} {a : Nat} {b : Byte} (h : Memory.wf m = true) (ha : a < memSize) :
    Memory.wf (Memory.write m a b) = true := by
  unfold Memory.write Memory.wf
  split
  · exact wfFrom_erase a h
  · rename_i hb
    exact wfFrom_insert ha hb (erase_ne m a) (Nat.zero_le a) (wfFrom_erase a h)

/-- Writing bytes within the address space keeps the canonical form. -/
theorem wf_writeAll (bs : List Byte) {m : Memory} {a : Nat} (h : Memory.wf m = true) (ha : a + bs.length ≤ memSize) :
    Memory.wf (Memory.writeAll m a bs) = true := by
  induction bs generalizing m a with
  | nil => exact h
  | cons b bs ih =>
    simp only [List.length_cons] at ha
    exact ih (wf_write h (by omega)) (by omega)

/-- The empty memory, which `State.reset` has, is in canonical form. -/
theorem wf_nil : Memory.wf [] = true := rfl

/-- A canonical memory reads as unlisted below its first cell. -/
theorem read_of_lt {lo : Nat} {m : Memory} (h : Memory.wfFrom lo m = true) {a : Nat} (ha : a < lo) :
    Memory.read m a = unlistedByte a := by
  induction m generalizing lo with
  | nil => rfl
  | cons c rest ih =>
    obtain ⟨k, b⟩ := c
    simp only [Memory.wfFrom, Bool.and_eq_true, decide_eq_true_eq] at h
    have : k ≠ a := by omega
    simp only [Memory.read, this, if_false]
    exact ih h.2 (by omega)

theorem eq_of_read_from {m m' : Memory} : ∀ {lo : Nat}, Memory.wfFrom lo m = true → Memory.wfFrom lo m' = true →
    (∀ a, Memory.read m a = Memory.read m' a) → m = m' := by
  induction m generalizing m' with
  | nil =>
    intro lo _ h' hr
    cases m' with
    | nil => rfl
    | cons c rest =>
      obtain ⟨k, b⟩ := c
      simp only [Memory.wfFrom, Bool.and_eq_true, decide_eq_true_eq] at h'
      have := hr k
      simp [Memory.read] at this
      exact absurd this.symm h'.1.2
  | cons c rest ih =>
    obtain ⟨k, b⟩ := c
    intro lo h h' hr
    simp only [Memory.wfFrom, Bool.and_eq_true, decide_eq_true_eq] at h
    cases m' with
    | nil =>
      have := hr k
      simp [Memory.read] at this
      exact absurd this h.1.2
    | cons c' rest' =>
      obtain ⟨k', b'⟩ := c'
      simp only [Memory.wfFrom, Bool.and_eq_true, decide_eq_true_eq] at h'
      have hkk : k = k' := by
        by_contra hne
        rcases Nat.lt_or_gt_of_ne hne with hl | hl
        · have := hr k
          simp only [Memory.read, if_true, Ne.symm hne, if_false] at this
          rw [read_of_lt h'.2 (by omega)] at this
          exact h.1.2 this
        · have := hr k'
          simp only [Memory.read, if_true, hne, if_false] at this
          rw [read_of_lt h.2 (by omega)] at this
          exact h'.1.2 this.symm
      subst hkk
      have hb : b = b' := by simpa [Memory.read] using hr k
      subst hb
      rw [ih h.2 h'.2 ?_]
      intro a
      by_cases ha : a = k
      · subst ha; rw [read_of_lt h.2 (by omega), read_of_lt h'.2 (by omega)]
      · have := hr a
        simpa [Memory.read, Ne.symm ha] using this

/-- Equal memories are equal data: two canonical memories that read the same everywhere are the same list. -/
theorem eq_of_read {m m' : Memory} (h : Memory.wf m = true) (h' : Memory.wf m' = true)
    (hr : ∀ a, Memory.read m a = Memory.read m' a) : m = m' := eq_of_read_from h h' hr

/-- Above the address space a canonical memory reads as unlisted. -/
theorem read_of_ge {m : Memory} {a : Nat} (ha : memSize ≤ a) : ∀ {lo : Nat}, Memory.wfFrom lo m = true →
    Memory.read m a = unlistedByte a := by
  induction m with
  | nil => intro _ _; rfl
  | cons c rest ih =>
    obtain ⟨k, b⟩ := c
    intro lo h
    simp only [Memory.wfFrom, Bool.and_eq_true, decide_eq_true_eq] at h
    have : k ≠ a := by omega
    simp only [Memory.read, this, if_false]
    exact ih h.2

end Sys2Proof.Laws
end

