-- ==== Sys2Proof/Laws/Ops.lean ====
section
/-! SUPPORT. For each shared operation one lemma that says what it can do; later proofs cite these and do not unfold the
operation. -/

namespace Sys2Proof.Laws

open Sys2Proof.Machine

/-! ### Sub-steps -/

@[simp] theorem andThen_done {α β : Type} (a : α) (s : State) (f : α → State → Progress β) :
    (Progress.done a s).andThen f = f a s := rfl

@[simp] theorem andThen_failed {α β : Type} (e : Fault) (s : State) (f : α → State → Progress β) :
    (Progress.failed e s : Progress α).andThen f = .failed e s := rfl

/-- A sequence is done exactly where both parts are. -/
theorem andThen_eq_done {α β : Type} {p : Progress α} {f : α → State → Progress β} {b : β} {t : State} :
    p.andThen f = .done b t ↔ ∃ a s, p = .done a s ∧ f a s = .done b t := by
  cases p <;> simp [Progress.andThen]

/-- A sequence fails exactly where its first part fails, or its first is done and its second fails. -/
theorem andThen_eq_failed {α β : Type} {p : Progress α} {f : α → State → Progress β} {e : Fault} {t : State} :
    p.andThen f = .failed e t ↔ p = .failed e t ∨ ∃ a s, p = .done a s ∧ f a s = .failed e t := by
  cases p <;> simp [Progress.andThen]

theorem memRead_inside {a : Nat} (h : a ≤ 0xFFF) (s : State) : memRead a s = .done (Memory.read s.mem a) s := by
  simp [memRead, h]

theorem memRead_outside {a : Nat} (h : 0xFFF < a) (s : State) : memRead a s = .failed (.outOfBounds a) s := by
  simp [memRead, Nat.not_le.mpr h]

theorem memWrite_inside {a : Nat} (h : a ≤ 0xFFF) (b : Byte) (s : State) :
    memWrite a b s = .done () (s.setMem (Memory.write s.mem a b)) := by
  simp [memWrite, h]

theorem memWrite_outside {a : Nat} (h : 0xFFF < a) (b : Byte) (s : State) :
    memWrite a b s = .failed (.outOfBounds a) s := by
  simp [memWrite, Nat.not_le.mpr h]

/-- The two-byte read: the word, or the error of the first byte out of bounds; the state is unchanged (R54). -/
theorem memReadWord_spec (a : Nat) (s : State) :
    memReadWord a s =
      if a + 1 ≤ 0xFFF then .done (wordAt s.mem a) s else .failed (.outOfBounds (max a 0x1000)) s := by
  unfold memReadWord
  by_cases h1 : a ≤ 0xFFF
  · rw [memRead_inside h1, andThen_done]
    by_cases h2 : a + 1 ≤ 0xFFF
    · rw [memRead_inside h2, andThen_done, if_pos h2]; rfl
    · rw [memRead_outside (by omega), andThen_failed, if_neg h2]
      congr 2; omega
  · rw [memRead_outside (by omega), andThen_failed, if_neg (by omega)]
    congr 2; omega

/-- The two-byte write where both bytes are in bounds (R54). -/
theorem memWriteWord_inside {a : Nat} (h : a + 1 ≤ 0xFFF) (w : Word) (s : State) :
    memWriteWord a w s = .done () (s.setMem (Memory.write (Memory.write s.mem a (hiByte w)) (a + 1) (loByte w))) := by
  simp only [memWriteWord, memWrite_inside (show a ≤ 0xFFF by omega), andThen_done, memWrite_inside h]
  rfl

/-- Every ending of the two-byte write: memory is all that can change. -/
theorem memWriteWord_cases (a : Nat) (w : Word) (s : State) :
    (∃ m, memWriteWord a w s = .done () (s.setMem m) ∧ (Memory.wf s.mem = true → Memory.wf m = true)) ∨
    (∃ e m, memWriteWord a w s = .failed e (s.setMem m) ∧ (Memory.wf s.mem = true → Memory.wf m = true) ∧
      0xFFF < a + 1) := by
  by_cases h : a + 1 ≤ 0xFFF
  · exact .inl ⟨_, memWriteWord_inside h w s, fun hm => wf_write (wf_write hm (by simp [memSize]; omega)) (by simp [memSize]; omega)⟩
  · refine .inr ?_
    by_cases h1 : a ≤ 0xFFF
    · refine ⟨.outOfBounds (a + 1), Memory.write s.mem a (hiByte w), ?_, fun hm => wf_write hm (by simp [memSize]; omega), by omega⟩
      simp [memWriteWord, memWrite_inside h1, memWrite_outside (show 0xFFF < a + 1 by omega)]
    · refine ⟨.outOfBounds a, s.mem, ?_, id, by omega⟩
      simp [memWriteWord, memWrite_outside (show 0xFFF < a by omega), State.setMem]

/-- Storing bytes: all of them where the last is in bounds; else those in bounds, and the error of the first that is
not (R53, R118). -/
theorem storeBytes_spec (bs : List Byte) (a : Nat) (s : State) :
    storeBytes a bs s =
      if bs = [] ∨ a + bs.length ≤ 0x1000 then .done () (s.setMem (Memory.writeAll s.mem a bs))
      else .failed (.outOfBounds (max a 0x1000)) (s.setMem (Memory.writeAll s.mem a (bs.take (0x1000 - a)))) := by
  induction bs generalizing a s with
  | nil => simp [storeBytes, Memory.writeAll, State.setMem]
  | cons b bs ih =>
    unfold storeBytes
    by_cases h : a ≤ 0xFFF
    · rw [memWrite_inside h, andThen_done, ih]
      have hm : max (a + 1) 0x1000 = max a 0x1000 := by omega
      have ht : 0x1000 - a = (0x1000 - (a + 1)) + 1 := by omega
      by_cases h1 : bs = [] ∨ a + 1 + bs.length ≤ 0x1000
      · rw [if_pos h1, if_pos]
        · simp [Memory.writeAll, State.setMem]
        · rcases h1 with h1 | h1
          · subst h1; right; simp; omega
          · right; simp only [List.length_cons]; omega
      · rw [if_neg h1, if_neg, hm, ht]
        · simp [Memory.writeAll, State.setMem]
        · simp only [List.length_cons, reduceCtorEq, false_or]
          intro h2; exact h1 (.inr (by omega))
    · rw [memWrite_outside (by omega), andThen_failed, if_neg (by simp; omega)]
      have : 0x1000 - a = 0 := by omega
      rw [this, show max a 0x1000 = a by omega]
      simp [Memory.writeAll, State.setMem]

/-- The registers loaded from bytes at rising addresses, all in bounds. -/
def loadAll (m : Memory) : Nat → List RegIdx → State → State
  | _, [], s => s
  | a, j :: js, s => loadAll m (a + 1) js (s.setReg j (Memory.read m a))

/-- Loading registers: all of them where the last byte is in bounds; else those in bounds, and the error of the first
byte that is not (R53, R118). -/
theorem loadBytes_spec (js : List RegIdx) (a : Nat) (s : State) :
    loadBytes a js s =
      if js = [] ∨ a + js.length ≤ 0x1000 then .done () (loadAll s.mem a js s)
      else .failed (.outOfBounds (max a 0x1000)) (loadAll s.mem a (js.take (0x1000 - a)) s) := by
  induction js generalizing a s with
  | nil => simp [loadBytes, loadAll]
  | cons j js ih =>
    unfold loadBytes
    by_cases h : a ≤ 0xFFF
    · rw [memRead_inside h, andThen_done, ih]
      have hm : max (a + 1) 0x1000 = max a 0x1000 := by omega
      have ht : 0x1000 - a = (0x1000 - (a + 1)) + 1 := by omega
      by_cases h1 : js = [] ∨ a + 1 + js.length ≤ 0x1000
      · rw [if_pos h1, if_pos]
        · simp [loadAll]
        · rcases h1 with h1 | h1
          · subst h1; right; simp; omega
          · right; simp only [List.length_cons]; omega
      · rw [if_neg h1, if_neg, hm, ht]
        · simp [loadAll]
        · simp only [List.length_cons, reduceCtorEq, false_or]
          intro h2; exact h1 (.inr (by omega))
    · rw [memRead_outside (by omega), andThen_failed, if_neg (by simp; omega)]
      have : 0x1000 - a = 0 := by omega
      rw [this, show max a 0x1000 = a by omega]
      simp [loadAll]

/-- Loading registers changes general registers only. -/
theorem loadAll_frame (m : Memory) (js : List RegIdx) (a : Nat) (s : State) :
    loadAll m a js s = { s with v := (loadAll m a js s).v } := by
  induction js generalizing a s with
  | nil => rfl
  | cons j js ih => rw [loadAll, ih]; rfl

/-- A register that is not loaded keeps its value. -/
theorem loadAll_reg_of_not_mem (m : Memory) (js : List RegIdx) (a : Nat) (s : State) {j : RegIdx} (h : j ∉ js) :
    (loadAll m a js s).reg j = s.reg j := by
  induction js generalizing a s with
  | nil => rfl
  | cons k js ih =>
    simp only [List.mem_cons, not_or] at h
    rw [loadAll, ih _ _ h.2, setReg_reg, if_neg h.1]

/-- The register at position `k` of a list without repeats gets the byte at `a + k`. -/
theorem loadAll_reg_of_getElem (m : Memory) (js : List RegIdx) (a : Nat) (s : State) (hn : js.Nodup) {k : Nat}
    (hk : k < js.length) : (loadAll m a js s).reg js[k] = Memory.read m (a + k) := by
  induction js generalizing a s k with
  | nil => simp at hk
  | cons j js ih =>
    obtain ⟨hj, hn⟩ := List.nodup_cons.mp hn
    cases k with
    | zero => simp [loadAll, loadAll_reg_of_not_mem m js (a + 1) _ hj]
    | succ k =>
      simp only [List.length_cons] at hk
      simp only [loadAll, List.getElem_cons_succ]
      rw [ih (a + 1) _ hn (by omega)]
      congr 1; omega

/-! ### How a step ends -/

@[simp] theorem complete_eq (drew : Bool) (s : State) :
    complete drew s = .next (s.setResult (.sideEffects drew s.waitValid)) := rfl

/-- Raising an error: the fault with a driver that halts, else the state left, returning the error (R118, R120). -/
theorem raise_spec (e : Fault) (s : State) :
    (s.cfg.policy = .halt → raise e s = .fault e) ∧
    (s.cfg.policy = .logAndSkip → raise e s = .next (s.setResult (.error e))) := by
  constructor <;> intro h <;> simp [raise, h]

/-- Every answer of `raise`. -/
theorem raise_eq_next {e : Fault} {s t : State} (h : raise e s = .next t) : t = s.setResult (.error e) := by
  unfold raise at h
  split at h <;> simp at h
  exact h.symm

@[simp] theorem finish_done (drew : Bool) (s : State) :
    finish drew (.done () s) = .next (s.setResult (.sideEffects drew s.waitValid)) := rfl

@[simp] theorem finish_failed (drew : Bool) (e : Fault) (s : State) : finish drew (.failed e s) = raise e s := rfl

/-- The next state of an instruction is that of its sub-steps, done or failed, with the step's result. -/
theorem finish_eq_next {drew : Bool} {p : Progress Unit} {t : State} (h : finish drew p = .next t) :
    (∃ s, p = .done () s ∧ t = s.setResult (.sideEffects drew s.waitValid)) ∨
    (∃ e s, p = .failed e s ∧ t = s.setResult (.error e)) := by
  cases p with
  | done u s =>
    rw [finish_done] at h
    injection h with h
    exact .inl ⟨s, rfl, h.symm⟩
  | failed e s => exact .inr ⟨e, s, rfl, raise_eq_next h⟩

/-! ### The program counter -/

/-- The fetch: the word at PC, or OutOfBounds of the first byte above 0xFFF; the state is unchanged (R113). -/
theorem fetch_spec (s : State) :
    fetch s = if s.pc.toNat + 1 ≤ 0xFFF then .done (wordAt s.mem s.pc.toNat) s
      else .failed (.outOfBounds (max s.pc.toNat 0x1000)) s := memReadWord_spec _ _

/-- A skip changes PC only. -/
theorem skipIf_eq (c : Bool) (s : State) : skipIf c s = s.setPc (if c then s.pc + 2 else s.pc) := by
  cases c <;> rfl

/-! ### The call stack -/

/-- `push` where the stack is not full and SP is in memory (R130). -/
theorem push_inside {s : State} (h : s.sp ≠ stackLimit) (hs : s.sp.toNat + 1 ≤ 0xFFF) (w : Word) :
    push w s = .done () ((s.setMem (Memory.write (Memory.write s.mem s.sp.toNat (hiByte w)) (s.sp.toNat + 1) (loByte w))).setSp (s.sp + 2)) := by
  rw [push, if_neg h, memWriteWord_inside hs]
  rfl

/-- `push` with the stack full (R130). -/
theorem push_full {s : State} (h : s.sp = stackLimit) (w : Word) : push w s = .failed .stackOverflow s := by
  simp [push, h]

/-- `pop` where the stack is not empty and the entry is in memory (R131). -/
theorem pop_inside {s : State} (h : s.sp ≠ stackBase) (hs : (s.sp - 2).toNat + 1 ≤ 0xFFF) :
    pop s = .done (wordAt s.mem (s.sp - 2).toNat) (s.setSp (s.sp - 2)) := by
  rw [pop, if_neg h]
  exact (memReadWord_spec _ _).trans (if_pos hs)

/-- `pop` with the stack empty (R131). -/
theorem pop_empty {s : State} (h : s.sp = stackBase) : pop s = .failed .stackUnderflow s := by
  simp [pop, h]

/-! ### Timers and inputs -/

/-- `n + 1` ticks on a timer are `n` ticks and then one (R254). -/
theorem countDownBy_succ (n : Nat) (t : Byte) : countDownBy (n + 1) t = countDown (countDownBy n t) := by
  unfold countDownBy countDown
  by_cases h : t = 0
  · simp [h]
  · simp only [h, if_false]
    have ht : 0 < t.toNat := by
      rcases Nat.eq_zero_or_pos t.toNat with h0 | h0
      · exact absurd (BitVec.eq_of_toNat_eq (by simpa using h0)) h
      · exact h0
    have hl := t.isLt
    by_cases h0 : t.toNat ≤ n
    · have h1 : t.toNat - n = 0 := by omega
      have h2 : t.toNat - (n + 1) = 0 := by omega
      simp [h1, h2]
    · rw [if_neg]
      · apply BitVec.eq_of_toNat_eq
        rw [BitVec.toNat_sub]
        simp only [BitVec.toNat_ofNat, show (1 : Byte).toNat = 1 from rfl]
        omega
      · intro hc
        have := congrArg BitVec.toNat hc
        simp only [BitVec.toNat_ofNat, show (0 : Byte).toNat = 0 from rfl] at this
        omega

/-- A timer under `n` ticks: `n` less, floored at 0 (R253). -/
theorem countDownBy_toNat (n : Nat) (t : Byte) : (countDownBy n t).toNat = t.toNat - n := by
  unfold countDownBy
  split
  · rename_i h; subst h; simp
  · rw [BitVec.toNat_ofNat, Nat.mod_eq_of_lt (by have := t.isLt; omega)]

section Deliver

variable (s : State)

@[simp] theorem deliver_v : (deliver s).v = s.v := rfl
@[simp] theorem deliver_reg (j : RegIdx) : (deliver s).reg j = s.reg j := rfl
@[simp] theorem deliver_i : (deliver s).i = s.i := rfl
@[simp] theorem deliver_pc : (deliver s).pc = s.pc := rfl
@[simp] theorem deliver_dt : (deliver s).dt = countDownBy (nextInput s).ticks s.dt := rfl
@[simp] theorem deliver_st : (deliver s).st = countDownBy (nextInput s).ticks s.st := rfl
@[simp] theorem deliver_sp : (deliver s).sp = s.sp := rfl
@[simp] theorem deliver_waitValid : (deliver s).waitValid = s.waitValid := rfl
@[simp] theorem deliver_waitReg : (deliver s).waitReg = s.waitReg := rfl
@[simp] theorem deliver_mem : (deliver s).mem = s.mem := rfl
@[simp] theorem deliver_keys : (deliver s).keys = (nextInput s).keys := rfl
@[simp] theorem deliver_rnd : (deliver s).rnd = (nextInput s).rnd := rfl
@[simp] theorem deliver_inputs : (deliver s).inputs = s.inputs.tail := rfl
@[simp] theorem deliver_drawn : (deliver s).drawn = s.drawn + 1 := rfl
@[simp] theorem deliver_result : (deliver s).result = s.result := rfl
@[simp] theorem deliver_cfg : (deliver s).cfg = s.cfg := rfl

end Deliver

/-- The least key down, if any is (R220). -/
theorem firstKey_eq_some {keys : BitVec 16} {k : Nat} :
    firstKey keys = some k ↔ k < 16 ∧ keys.getLsbD k = true ∧ ∀ j < k, keys.getLsbD j = false := by
  unfold firstKey
  rw [List.find?_range_eq_some]
  simp [and_left_comm]

/-- No key is found exactly where none is down (R116, R223). -/
theorem firstKey_eq_none {keys : BitVec 16} : firstKey keys = none ↔ keys = 0 := by
  unfold firstKey
  rw [List.find?_eq_none]
  constructor
  · intro h
    apply BitVec.eq_of_getLsbD_eq
    intro j hj
    have := h j (List.mem_range.mpr hj)
    simpa using this
  · rintro rfl k _
    simp

/-! ### The operands -/

theorem regsUpTo_length (x : RegIdx) : (regsUpTo x).length = x.toNat + 1 := by simp [regsUpTo]

theorem regsUpTo_getElem (x : RegIdx) {k : Nat} (hk : k < (regsUpTo x).length) :
    (regsUpTo x)[k] = BitVec.ofNat 4 k := by simp [regsUpTo]

theorem mem_regsUpTo {x j : RegIdx} : j ∈ regsUpTo x ↔ j ≤ x := by
  simp only [regsUpTo, List.mem_map, List.mem_range]
  constructor
  · rintro ⟨k, hk, rfl⟩
    rw [BitVec.le_def, BitVec.toNat_ofNat]
    omega
  · intro h
    exact ⟨j.toNat, by rw [BitVec.le_def] at h; omega, by simp⟩

theorem regsUpTo_nodup (x : RegIdx) : (regsUpTo x).Nodup := by
  rw [List.nodup_iff_injective_getElem]
  intro i j h
  simp only [regsUpTo_getElem] at h
  have hi : i.val < x.toNat + 1 := by simpa [regsUpTo_length] using i.isLt
  have hj : j.val < x.toNat + 1 := by simpa [regsUpTo_length] using j.isLt
  have hx := x.isLt
  have := congrArg BitVec.toNat h
  simp only [BitVec.toNat_ofNat] at this
  exact Fin.ext (by omega)

/-! ### Initialisation -/

/-- `State.reset` is what initialisation gives for the named values and an empty program image: the font it loads is
what unlisted memory reads as (R33, R34, R280; log 3, 10). -/
theorem initialise_reset : initialise ResetParams.named [] = .next State.reset := by
  have h : loadFont (initialRegisters ResetParams.named) = State.reset := by decide
  rw [initialise, h]
  rfl

end Sys2Proof.Laws
end

