-- ==== Sys2Proof/Laws/Display.lean ====
section
/-! SUPPORT. What drawing can do: the pixel decoder stays in the framebuffer, and pixel, row and sprite change VF and
framebuffer bytes only (spec/20_memory.md R61, spec/44_display.md R201). -/

namespace Sys2Proof.Laws

open Sys2Proof.Machine

/-- A resolved pixel is in the framebuffer, clipped or wrapped. -/
theorem resolvePixel_inside {edge : EdgeMode} {px py x y : Nat} (h : resolvePixel edge px py = some (x, y)) :
    x < 64 ∧ y < 32 := by
  cases edge with
  | clip =>
    simp only [resolvePixel] at h
    split at h
    · rename_i hc
      injection h with h
      injection h with hx hy
      omega
    · cases h
  | wrap =>
    simp only [resolvePixel] at h
    injection h with h
    injection h with hx hy
    omega

/-- The byte of a pixel is a framebuffer byte (R61, "never out of bounds"). -/
theorem fbAddr_inside {x y : Nat} (hx : x < 64) (hy : y < 32) : fbBase ≤ fbAddr x y ∧ fbAddr x y < fbBase + fbSize := by
  simp only [fbAddr, fbBase, fbSize]; omega

/-- The mask of a pixel has the one bit 7 - x mod 8 (R61). -/
theorem fbMask_getLsbD {x j : Nat} (hj : j < 8) : (fbMask x).getLsbD j = decide (j = 7 - x % 8) := by
  have hx : x % 8 < 8 := Nat.mod_lt _ (by omega)
  unfold fbMask
  generalize x % 8 = r at hx
  interval_cases r <;> interval_cases j <;> decide

/-- A pixel is one bit of its byte (R61). -/
theorem getPixel_eq (m : Memory) (x y : Nat) :
    getPixel m x y = (Memory.read m (fbAddr x y)).getLsbD (7 - x % 8) := by
  unfold getPixel
  rw [Bool.eq_iff_iff, decide_eq_true_eq]
  constructor
  · intro h
    by_contra hc
    apply h
    apply BitVec.eq_of_getLsbD_eq
    intro j hj
    rw [BitVec.getLsbD_and, fbMask_getLsbD hj]
    by_cases hjj : j = 7 - x % 8
    · subst hjj; rw [Bool.not_eq_true] at hc; simp [hc]
    · simp [hjj]
  · intro h hc
    have := congrArg (fun w => BitVec.getLsbD w (7 - x % 8)) hc
    simp [h, fbMask_getLsbD (show 7 - x % 8 < 8 by omega)] at this

/-- What drawing may change: VF, only to 1, and framebuffer bytes. -/
structure DrawFrame (s t : State) : Prop where
  rest    : t = { s with v := t.v, mem := t.mem }
  regs    : ∀ j, j ≠ vf → t.reg j = s.reg j
  flag    : t.reg vf = s.reg vf ∨ t.reg vf = 1
  wf      : Memory.wf s.mem = true → Memory.wf t.mem = true
  outside : ∀ a, a < fbBase ∨ fbBase + fbSize ≤ a → Memory.read t.mem a = Memory.read s.mem a

theorem DrawFrame.refl (s : State) : DrawFrame s s := ⟨rfl, fun _ _ => rfl, .inl rfl, id, fun _ _ => rfl⟩

theorem DrawFrame.trans {s t u : State} (h : DrawFrame s t) (h' : DrawFrame t u) : DrawFrame s u where
  rest := by rw [h'.rest, h.rest]
  regs j hj := (h'.regs j hj).trans (h.regs j hj)
  flag := by
    rcases h'.flag with h1 | h1
    · rw [h1]; exact h.flag
    · exact .inr h1
  wf hw := h'.wf (h.wf hw)
  outside a ha := (h'.outside a ha).trans (h.outside a ha)

/-- Every field but the registers and memory is as before a draw. -/
theorem DrawFrame.fields {s t : State} (h : DrawFrame s t) :
    t.i = s.i ∧ t.pc = s.pc ∧ SameSpecials s t ∧ SamePorts s t ∧ t.result = s.result := by
  rw [h.rest]
  exact ⟨rfl, rfl, ⟨⟨rfl, rfl, rfl, rfl⟩, rfl⟩, ⟨rfl, rfl, rfl, rfl, rfl⟩, rfl⟩

/-- One pixel: nothing where it is clipped; else it is toggled, and VF becomes 1 where it was lit (R201). -/
theorem drawPixel_cases (px py : Nat) (s : State) :
    (resolvePixel s.cfg.edge px py = none ∧ drawPixel px py s = s) ∨
    ∃ x y, resolvePixel s.cfg.edge px py = some (x, y) ∧
      drawPixel px py s =
        if getPixel s.mem x y then (s.setMem (togglePixel s.mem x y)).setFlag true
        else s.setMem (togglePixel s.mem x y) := by
  unfold drawPixel
  split
  · exact .inl ⟨‹_›, rfl⟩
  · exact .inr ⟨_, _, ‹_›, rfl⟩

theorem drawPixel_frame (px py : Nat) (s : State) : DrawFrame s (drawPixel px py s) := by
  rcases drawPixel_cases px py s with ⟨-, h⟩ | ⟨x, y, hr, h⟩
  · rw [h]; exact .refl s
  · obtain ⟨hx, hy⟩ := resolvePixel_inside hr
    have hb := fbAddr_inside hx hy
    have hw : Memory.wf s.mem = true → Memory.wf (togglePixel s.mem x y) = true := fun hm =>
      wf_write hm (by simp only [fbBase, fbSize, memSize] at *; omega)
    have ho : ∀ a, a < fbBase ∨ fbBase + fbSize ≤ a → Memory.read (togglePixel s.mem x y) a = Memory.read s.mem a := by
      intro a ha
      rw [togglePixel, read_write, if_neg (by omega)]
    rw [h]
    split
    · refine ⟨rfl, fun j hj => ?_, .inr ?_, hw, ho⟩
      · simp [hj]
      · simp [flagByte]
    · exact ⟨rfl, fun _ _ => rfl, .inl rfl, hw, ho⟩

theorem drawRow_frame (x0 py : Nat) (b : Byte) (s : State) : DrawFrame s (drawRow x0 py b s) := by
  unfold drawRow
  generalize List.range 8 = bits
  induction bits generalizing s with
  | nil => exact .refl s
  | cons bit bits ih =>
    simp only [List.foldl_cons]
    split
    · exact (drawPixel_frame _ _ s).trans (ih _)
    · exact ih s

/-- A whole sprite: done exactly where it has no rows or its last byte is in bounds; else OutOfBounds of the first byte
that is not, with the rows before it drawn (R201). -/
theorem drawRows_spec (n a x0 py : Nat) (s : State) :
    (n = 0 ∨ a + n ≤ 0x1000) ∧ (∃ t, drawRows a x0 py n s = .done () t ∧ DrawFrame s t) ∨
    (0 < n ∧ 0x1000 < a + n) ∧ (∃ t, drawRows a x0 py n s = .failed (.outOfBounds (max a 0x1000)) t ∧ DrawFrame s t) := by
  induction n generalizing a py s with
  | zero => exact .inl ⟨.inl rfl, s, rfl, .refl s⟩
  | succ n ih =>
    by_cases ha : a ≤ 0xFFF
    · have hd : drawRows a x0 py (n + 1) s = drawRows (a + 1) x0 (py + 1) n (drawRow x0 py (Memory.read s.mem a) s) := by
        rw [drawRows, memRead_inside ha, andThen_done]
      have hf := drawRow_frame x0 py (Memory.read s.mem a) s
      rcases ih (a + 1) (py + 1) (drawRow x0 py (Memory.read s.mem a) s) with ⟨hn, t, ht, hft⟩ | ⟨hn, t, ht, hft⟩
      · exact .inl ⟨.inr (by omega), t, hd.trans ht, hf.trans hft⟩
      · refine .inr ⟨by omega, t, ?_, hf.trans hft⟩
        rw [hd, ht]; congr 2; omega
    · refine .inr ⟨by omega, s, ?_, .refl s⟩
      rw [drawRows, memRead_outside (by omega), andThen_failed, show max a 0x1000 = a by omega]

/-- Toggling a pixel of the screen flips that pixel and no other (R61). -/
theorem getPixel_togglePixel (m : Memory) {x y x' y' : Nat} (hx : x < 64) (hx' : x' < 64) :
    getPixel (togglePixel m x y) x' y' = (getPixel m x' y' ^^ (decide (x' = x) && decide (y' = y))) := by
  rw [getPixel_eq, getPixel_eq, togglePixel, read_write]
  by_cases h : fbAddr x' y' = fbAddr x y
  · have hy : y' = y ∧ x' / 8 = x / 8 := by simp only [fbAddr] at h; omega
    rw [if_pos h, BitVec.getLsbD_xor, fbMask_getLsbD (by omega), h]
    congr 1
    simp only [hy.1, decide_true, Bool.and_true]
    congr 1
    rw [eq_iff_iff]; omega
  · rw [if_neg h]
    have : ¬ (x' = x ∧ y' = y) := by rintro ⟨rfl, rfl⟩; exact h rfl
    by_cases h1 : x' = x <;> by_cases h2 : y' = y <;> simp_all

/-- The pixel a sprite's column and row fall on, and the column and row a pixel of the screen belongs to, say the same
(R201; U1 for `wrap`). -/
theorem resolvePixel_iff (edge : EdgeMode) {x0 y0 column row x y : Nat} (hc : column < 64) (hr : row < 32)
    (hx : x < 64) (hy : y < 32) :
    resolvePixel edge (x0 + column) (y0 + row) = some (x, y) ↔
      spriteOffset edge 64 x0 x = some column ∧ spriteOffset edge 32 y0 y = some row := by
  cases edge with
  | clip =>
    simp only [resolvePixel, spriteOffset]
    by_cases h1 : x0 ≤ x <;> by_cases h2 : y0 ≤ y <;> simp [h1, h2] <;> omega
  | wrap =>
    simp only [resolvePixel, spriteOffset, Option.some.injEq, Prod.mk.injEq]
    omega

open Classical in
/-- What drawing the pixels of `bits` does: each of them on the screen is flipped, and VF becomes 1 where one of them was
lit (R201). -/
structure Drawn (bits : Nat → Nat → Bool) (s t : State) : Prop where
  frame : DrawFrame s t
  pixel : ∀ x y, x < 64 → y < 32 → getPixel t.mem x y = (getPixel s.mem x y ^^ bits x y)
  flag  : t.reg vf =
    if ∃ x y, x < 64 ∧ y < 32 ∧ getPixel s.mem x y = true ∧ bits x y = true then 1 else s.reg vf

theorem Drawn.nothing {s : State} {bits : Nat → Nat → Bool} (h : ∀ x y, x < 64 → y < 32 → bits x y = false) :
    Drawn bits s s where
  frame := .refl s
  pixel x y hx hy := by simp [h x y hx hy]
  flag := by
    rw [if_neg]
    rintro ⟨x, y, hx, hy, -, hb⟩
    simp [h x y hx hy] at hb

/-- Drawing one set of pixels and then another that shares none with it is drawing both. -/
theorem Drawn.trans {bits bits' : Nat → Nat → Bool} {s t u : State} (h : Drawn bits s t) (h' : Drawn bits' t u)
    (hd : ∀ x y, x < 64 → y < 32 → bits x y = true → bits' x y = false) :
    Drawn (fun x y => bits x y || bits' x y) s u where
  frame := h.frame.trans h'.frame
  pixel x y hx hy := by
    rw [h'.pixel x y hx hy, h.pixel x y hx hy]
    have := hd x y hx hy
    cases hB : bits x y <;> cases hC : bits' x y <;> simp_all
  flag := by
    have hsame : ∀ x y, x < 64 → y < 32 → bits' x y = true → getPixel t.mem x y = getPixel s.mem x y := by
      intro x y hx hy hc
      rw [h.pixel x y hx hy]
      cases hB : bits x y
      · simp
      · simp [hd x y hx hy hB] at hc
    have hiff : (∃ x y, x < 64 ∧ y < 32 ∧ getPixel s.mem x y = true ∧ (bits x y || bits' x y) = true) ↔
        (∃ x y, x < 64 ∧ y < 32 ∧ getPixel t.mem x y = true ∧ bits' x y = true) ∨
        ∃ x y, x < 64 ∧ y < 32 ∧ getPixel s.mem x y = true ∧ bits x y = true := by
      constructor
      · rintro ⟨x, y, hx, hy, hg, hb⟩
        rcases Bool.or_eq_true_iff.mp hb with hb | hb
        · exact .inr ⟨x, y, hx, hy, hg, hb⟩
        · exact .inl ⟨x, y, hx, hy, by rw [hsame x y hx hy hb]; exact hg, hb⟩
      · rintro (⟨x, y, hx, hy, hg, hb⟩ | ⟨x, y, hx, hy, hg, hb⟩)
        · exact ⟨x, y, hx, hy, by rw [← hsame x y hx hy hb]; exact hg, by simp [hb]⟩
        · exact ⟨x, y, hx, hy, hg, by simp [hb]⟩
    rw [h'.flag, h.flag]
    by_cases h1 : ∃ x y, x < 64 ∧ y < 32 ∧ getPixel t.mem x y = true ∧ bits' x y = true
    · rw [if_pos h1, if_pos (hiff.mpr (.inl h1))]
    · by_cases h2 : ∃ x y, x < 64 ∧ y < 32 ∧ getPixel s.mem x y = true ∧ bits x y = true
      · rw [if_neg h1, if_pos h2, if_pos (hiff.mpr (.inr h2))]
      · rw [if_neg h1, if_neg h2, if_neg fun h => (hiff.mp h).elim h1 h2]

/-- One pixel, clipped or wrapped (R201; U1). -/
theorem drawPixel_drawn (px py : Nat) (s : State) :
    Drawn (fun x y => decide (resolvePixel s.cfg.edge px py = some (x, y))) s (drawPixel px py s) := by
  have hf := drawPixel_frame px py s
  rcases drawPixel_cases px py s with ⟨hr, h⟩ | ⟨x, y, hr, h⟩
  · rw [h]; exact .nothing (by simp [hr])
  · obtain ⟨hx, hy⟩ := resolvePixel_inside hr
    have hmem : (drawPixel px py s).mem = togglePixel s.mem x y := by rw [h]; split <;> rfl
    refine ⟨hf, fun x' y' hx' _ => ?_, ?_⟩
    · rw [hmem, getPixel_togglePixel _ hx hx', hr]
      congr 1
      simp [Bool.decide_and, eq_comm]
    · by_cases hg : getPixel s.mem x y = true
      · rw [h, if_pos hg, if_pos ⟨x, y, hx, hy, hg, by simp [hr]⟩]
        simp [flagByte]
      · rw [h, if_neg hg, if_neg]
        · rfl
        · rintro ⟨x', y', -, -, h1, h2⟩
          simp only [hr, Option.some.injEq, Prod.mk.injEq, decide_eq_true_eq] at h2
          obtain ⟨rfl, rfl⟩ := h2
          exact hg h1

theorem DrawFrame.cfg_eq {s t : State} (h : DrawFrame s t) : t.cfg = s.cfg := h.fields.2.2.2.1.2.2.2.2

theorem drawBits_drawn (x0 py : Nat) (b : Byte) (js : List Nat) (hj : ∀ j ∈ js, j < 64) (hn : js.Nodup) (s : State) :
    Drawn (fun x y => js.any fun j => b.getLsbD (7 - j) && decide (resolvePixel s.cfg.edge (x0 + j) py = some (x, y))) s
      (js.foldl (fun s j => if b.getLsbD (7 - j) then drawPixel (x0 + j) py s else s) s) := by
  induction js generalizing s with
  | nil => exact .nothing (by simp)
  | cons j js ih =>
    obtain ⟨hnj, hn⟩ := List.nodup_cons.mp hn
    have hjs : ∀ k ∈ js, k < 64 := fun k hk => hj k (by simp [hk])
    simp only [List.foldl_cons]
    cases hb : b.getLsbD (7 - j)
    · simpa [hb] using ih hjs hn s
    · have h1 := drawPixel_drawn (x0 + j) py s
      have h2 := ih hjs hn (drawPixel (x0 + j) py s)
      rw [h1.frame.cfg_eq] at h2
      have h3 := h1.trans h2 (by
        intro x y hx hy h
        rw [decide_eq_true_eq] at h
        rw [List.any_eq_false]
        intro k hk hc
        rw [Bool.and_eq_true, decide_eq_true_eq] at hc
        have e1 := (resolvePixel_iff s.cfg.edge (row := 0) (hj j (by simp)) (by omega) hx hy).mp h
        have e2 := (resolvePixel_iff s.cfg.edge (row := 0) (hjs k hk) (by omega) hx hy).mp hc.2
        have : j = k := Option.some.inj (e1.1.symm.trans e2.1)
        exact hnj (this ▸ hk))
      simpa [hb] using h3

/-- One row of a sprite XORs its byte onto the screen (R201; U1). -/
theorem drawRow_drawn (a x0 py : Nat) (s : State) :
    Drawn (spriteBit s.cfg.edge s.mem a 1 x0 py) s (drawRow x0 py (Memory.read s.mem a) s) := by
  have h := drawBits_drawn x0 py (Memory.read s.mem a) (List.range 8) (fun j hj => by have := List.mem_range.mp hj; omega)
    List.nodup_range s
  refine ⟨h.frame, fun x y hx hy => ?_, ?_⟩
  all_goals
    have hbits : ∀ x y, x < 64 → y < 32 → spriteBit s.cfg.edge s.mem a 1 x0 py x y =
        (List.range 8).any fun j => (Memory.read s.mem a).getLsbD (7 - j) &&
          decide (resolvePixel s.cfg.edge (x0 + j) py = some (x, y)) := by
      intro x y hx hy
      rw [Bool.eq_iff_iff, List.any_eq_true]
      simp only [List.mem_range, Bool.and_eq_true, decide_eq_true_eq]
      unfold spriteBit
      constructor
      · intro hs
        split at hs
        · rename_i c r hc hr
          simp only [Bool.and_eq_true, decide_eq_true_eq] at hs
          obtain ⟨⟨h1, h2⟩, h3⟩ := hs
          have h0 : r = 0 := by omega
          subst h0
          exact ⟨c, h1, h3, (resolvePixel_iff s.cfg.edge (row := 0) (by omega) (by omega) hx hy).mpr ⟨hc, hr⟩⟩
        · cases hs
      · rintro ⟨j, hj, hb, hres⟩
        obtain ⟨hc, hr⟩ := (resolvePixel_iff s.cfg.edge (row := 0) (by omega) (by omega) hx hy).mp hres
        rw [hc, hr]
        simp [hj, hb]
  · rw [hbits x y hx hy]; exact h.pixel x y hx hy
  · unfold drawRow
    rw [h.flag]
    congr 1
    rw [eq_iff_iff]
    constructor <;> rintro ⟨x, y, hx, hy, hg, hb⟩
    · exact ⟨x, y, hx, hy, hg, by rw [hbits x y hx hy]; exact hb⟩
    · exact ⟨x, y, hx, hy, hg, by rw [← hbits x y hx hy]; exact hb⟩

/-- A sprite of one row more: the rows before it, and then the row, its byte read as those rows left it (R201, R288). -/
theorem drawRows_succ (n a x0 y0 : Nat) (s : State) :
    drawRows a x0 y0 (n + 1) s =
      (drawRows a x0 y0 n s).andThen fun _ t =>
        (memRead (a + n) t).andThen fun b t => .done () (drawRow x0 (y0 + n) b t) := by
  induction n generalizing a y0 s with
  | zero => rfl
  | succ n ih =>
    rw [drawRows]
    by_cases ha : a ≤ 0xFFF
    · rw [memRead_inside ha, andThen_done, ih, drawRows, memRead_inside ha, andThen_done]
      simp only [show a + 1 + n = a + (n + 1) by omega, show y0 + 1 + n = y0 + (n + 1) by omega]
    · rw [memRead_outside (by omega), andThen_failed, drawRows, memRead_outside (by omega), andThen_failed, andThen_failed]

/-- A byte below the framebuffer lies under no sprite (R61). -/
theorem not_underSprite_of_lt {edge : EdgeMode} {n x0 y0 a : Nat} (h : a < fbBase) : ¬ underSprite edge n x0 y0 a := by
  rintro ⟨bit, row, px, py, -, -, hr, rfl⟩
  obtain ⟨hx, hy⟩ := resolvePixel_inside hr
  have := fbAddr_inside hx hy
  omega

theorem wf_clear_fold (js : List Nat) (hj : ∀ j ∈ js, j < fbSize) {m : Memory} (h : Memory.wf m = true) :
    Memory.wf (js.foldl (fun m j => Memory.write m (fbBase + j) 0) m) = true := by
  induction js generalizing m with
  | nil => exact h
  | cons j js ih =>
    have := hj j (by simp)
    exact ih (fun k hk => hj k (by simp [hk])) (wf_write h (by simp only [fbBase, fbSize, memSize] at *; omega))

/-- Clearing the framebuffer keeps the canonical form. -/
theorem wf_clearFramebuffer {m : Memory} (h : Memory.wf m = true) : Memory.wf (clearFramebuffer m) = true :=
  wf_clear_fold _ (fun _ hk => List.mem_range.mp hk) h

theorem read_clear_fold (js : List Nat) (m : Memory) (a : Nat) :
    Memory.read (js.foldl (fun m j => Memory.write m (fbBase + j) 0) m) a =
      if ∃ j ∈ js, a = fbBase + j then 0 else Memory.read m a := by
  induction js generalizing m with
  | nil => simp
  | cons j js ih =>
    simp only [List.foldl_cons, ih, read_write, List.mem_cons, exists_eq_or_imp]
    by_cases h1 : ∃ k ∈ js, a = fbBase + k
    · simp [h1]
    · by_cases h2 : a = fbBase + j <;> simp [h1, h2]

/-- The cleared framebuffer reads 0 in its 256 bytes, and every other byte reads as before (R200). -/
theorem read_clearFramebuffer (m : Memory) (a : Nat) :
    Memory.read (clearFramebuffer m) a =
      if fbBase ≤ a ∧ a < fbBase + fbSize then 0 else Memory.read m a := by
  rw [clearFramebuffer, read_clear_fold]
  congr 1
  simp only [List.mem_range, eq_iff_iff]
  constructor
  · rintro ⟨j, hj, rfl⟩; omega
  · intro h; exact ⟨a - fbBase, by omega, by omega⟩

end Sys2Proof.Laws
end

