-- ==== Sys2Proof/Laws/Encode.lean ====
section
/-! SUPPORT. The fields of encoded words (spec/30_encoding.md R81, R93), and words against their two bytes (R56). -/

namespace Sys2Proof.Laws

open Sys2Proof.Machine

/-- A bit that is 0 under a mask whose bit is 1. -/
theorem getElem_of_mask {p mask : Word} (hp : p &&& mask = 0) {j : Nat} (hj : j < 16) (hm : mask[j] = true) :
    p[j] = false := by
  have h : (p &&& mask)[j] = false := by rw [hp]; simp
  simpa [hm] using h

/-- The fields of a word in format NNN. -/
theorem encNNN_fields {p : Word} (hp : p &&& 0x0FFF = 0) (nnn : Addr12) :
    opC (encNNN p nnn) = opC p ∧ opNNN (encNNN p nnn) = nnn := by
  have hb : ∀ (j : Nat) (h : j < 12), p[j]'(by omega) = false := fun j h =>
    getElem_of_mask hp (by omega) (by interval_cases j <;> simp)
  constructor <;> ext j hj
  · simp [opC, encNNN]
  · simp only [opNNN, encNNN]
    interval_cases j <;> simp [hb]

/-- The fields of a word in format XNN. -/
theorem encXNN_fields {p : Word} (hp : p &&& 0x0FFF = 0) (x : RegIdx) (nn : Byte) :
    opC (encXNN p x nn) = opC p ∧ opX (encXNN p x nn) = x ∧ opNN (encXNN p x nn) = nn := by
  have hb : ∀ (j : Nat) (h : j < 12), p[j]'(by omega) = false := fun j h =>
    getElem_of_mask hp (by omega) (by interval_cases j <;> simp)
  refine ⟨?_, ?_, ?_⟩ <;> ext j hj <;> simp only [opC, opX, opNN, encXNN] <;> interval_cases j <;> simp [hb]

/-- The fields of a word in formats XYF and XYN. -/
theorem encXYN_fields {p : Word} (hp : p &&& 0x0FF0 = 0) (x y : RegIdx) (n : Nibble) :
    opC (encXYN p x y n) = opC p ∧ opX (encXYN p x y n) = x ∧ opY (encXYN p x y n) = y ∧
      opN (encXYN p x y n) = opN p ||| n := by
  have hb : ∀ (j : Nat) (_ : 4 ≤ j) (h : j < 12), p[j]'(by omega) = false := fun j h' h =>
    getElem_of_mask hp (by omega) (by interval_cases j <;> simp)
  refine ⟨?_, ?_, ?_, ?_⟩ <;> ext j hj <;> simp only [opC, opX, opY, opN, encXYN] <;>
    interval_cases j <;> simp [hb]

/-- The fields of a word in format XFF. -/
theorem encX_fields {p : Word} (hp : p &&& 0x0F00 = 0) (x : RegIdx) :
    opC (encX p x) = opC p ∧ opX (encX p x) = x ∧ opNN (encX p x) = opNN p := by
  have hb : ∀ (j : Nat) (_ : 8 ≤ j) (h : j < 12), p[j]'(by omega) = false := fun j h' h =>
    getElem_of_mask hp (by omega) (by interval_cases j <;> simp)
  refine ⟨?_, ?_, ?_⟩ <;> ext j hj <;> simp only [opC, opX, opNN, encX] <;> interval_cases j <;> simp [hb]

/-- The bits of a word whose class, or low bits, are those of a pattern. -/
theorem bit_of_opC {op p : Word} (h : opC op = opC p) {j : Nat} (hj : j < 16) (hj' : 12 ≤ j) : op[j] = p[j] := by
  have := congrArg (fun w => BitVec.getLsbD w (j - 12)) h
  simp only [opC, BitVec.getLsbD_extractLsb'] at this
  rw [show 12 + (j - 12) = j by omega] at this
  simpa [show j - 12 < 4 by omega, BitVec.getLsbD_eq_getElem, hj] using this

theorem bit_of_opN {op p : Word} (h : opN op = opN p) {j : Nat} (hj : j < 4) : op[j] = p[j] := by
  have := congrArg (fun w => BitVec.getLsbD w j) h
  simp only [opN, BitVec.getLsbD_extractLsb'] at this
  simpa [hj, BitVec.getLsbD_eq_getElem, show j < 16 by omega] using this

theorem bit_of_opNN {op p : Word} (h : opNN op = opNN p) {j : Nat} (hj : j < 8) : op[j] = p[j] := by
  have := congrArg (fun w => BitVec.getLsbD w j) h
  simp only [opNN, BitVec.getLsbD_extractLsb'] at this
  simpa [hj, BitVec.getLsbD_eq_getElem, show j < 16 by omega] using this

/-- A word of a row in format NNN is the encoding of its field. -/
theorem encNNN_of {op p : Word} (hp : p &&& 0x0FFF = 0) (h : opC op = opC p) : encNNN p (opNNN op) = op := by
  have hb : ∀ (j : Nat) (h : j < 12), p[j]'(by omega) = false := fun j h =>
    getElem_of_mask hp (by omega) (by interval_cases j <;> simp)
  have hc := fun (j : Nat) (h1 : j < 16) (h2 : 12 ≤ j) => bit_of_opC h h1 h2
  ext j hj
  simp only [encNNN, opNNN]
  interval_cases j <;> simp [hb, hc, BitVec.getLsbD_eq_getElem]

/-- A word of a row in format XNN is the encoding of its fields. -/
theorem encXNN_of {op p : Word} (hp : p &&& 0x0FFF = 0) (h : opC op = opC p) : encXNN p (opX op) (opNN op) = op := by
  have hb : ∀ (j : Nat) (h : j < 12), p[j]'(by omega) = false := fun j h =>
    getElem_of_mask hp (by omega) (by interval_cases j <;> simp)
  have hc := fun (j : Nat) (h1 : j < 16) (h2 : 12 ≤ j) => bit_of_opC h h1 h2
  ext j hj
  simp only [encXNN, opX, opNN]
  interval_cases j <;> simp [hb, hc, BitVec.getLsbD_eq_getElem]

/-- A word of a row in format XYN is the encoding of its fields. -/
theorem encXYN_of {op p : Word} (hp : p &&& 0x0FFF = 0) (h : opC op = opC p) :
    encXYN p (opX op) (opY op) (opN op) = op := by
  have hb : ∀ (j : Nat) (h : j < 12), p[j]'(by omega) = false := fun j h =>
    getElem_of_mask hp (by omega) (by interval_cases j <;> simp)
  have hc := fun (j : Nat) (h1 : j < 16) (h2 : 12 ≤ j) => bit_of_opC h h1 h2
  ext j hj
  simp only [encXYN, opX, opY, opN]
  interval_cases j <;> simp [hb, hc, BitVec.getLsbD_eq_getElem]

/-- A word of a row in format XYF is the encoding of its fields. -/
theorem encXY_of {op p : Word} (hp : p &&& 0x0FF0 = 0) (h : opC op = opC p) (hn : opN op = opN p) :
    encXYN p (opX op) (opY op) 0 = op := by
  have hb : ∀ (j : Nat) (_ : 4 ≤ j) (h : j < 12), p[j]'(by omega) = false := fun j h' h =>
    getElem_of_mask hp (by omega) (by interval_cases j <;> simp)
  have hc := fun (j : Nat) (h1 : j < 16) (h2 : 12 ≤ j) => bit_of_opC h h1 h2
  have hd := fun (j : Nat) (h1 : j < 4) => bit_of_opN hn h1
  ext j hj
  simp only [encXYN, opX, opY]
  interval_cases j <;> simp [hb, hc, hd, BitVec.getLsbD_eq_getElem]

/-- A word of a row in format XFF is the encoding of its field. -/
theorem encX_of {op p : Word} (hp : p &&& 0x0F00 = 0) (h : opC op = opC p) (hn : opNN op = opNN p) :
    encX p (opX op) = op := by
  have hb : ∀ (j : Nat) (_ : 8 ≤ j) (h : j < 12), p[j]'(by omega) = false := fun j h' h =>
    getElem_of_mask hp (by omega) (by interval_cases j <;> simp)
  have hc := fun (j : Nat) (h1 : j < 16) (h2 : 12 ≤ j) => bit_of_opC h h1 h2
  have hd := fun (j : Nat) (h1 : j < 8) => bit_of_opNN hn h1
  ext j hj
  simp only [encX, opX]
  interval_cases j <;> simp [hb, hc, hd, BitVec.getLsbD_eq_getElem]

/-- A word is its two bytes, high byte first (R56). -/
theorem wordOfBytes_hiByte_loByte (w : Word) : wordOfBytes (hiByte w) (loByte w) = w := by
  apply BitVec.eq_of_toNat_eq
  have := w.isLt
  simp only [wordOfBytes, hiByte, loByte, BitVec.toNat_append, BitVec.extractLsb'_toNat, Nat.shiftRight_zero]
  rw [← Nat.shiftLeft_add_eq_or_of_lt (by omega), Nat.shiftRight_eq_div_pow, Nat.shiftLeft_eq]
  omega

/-- The number a word of two bytes is (R56). -/
theorem wordOfBytes_toNat (hi lo : Byte) : (wordOfBytes hi lo).toNat = hi.toNat * 256 + lo.toNat := by
  simp only [wordOfBytes, BitVec.toNat_append]
  rw [← Nat.shiftLeft_add_eq_or_of_lt (by exact lo.isLt), Nat.shiftLeft_eq]

theorem hiByte_toNat (w : Word) : (hiByte w).toNat = w.toNat / 256 := by
  have := w.isLt
  simp only [hiByte, BitVec.extractLsb'_toNat, Nat.shiftRight_eq_div_pow]
  omega

theorem loByte_toNat (w : Word) : (loByte w).toNat = w.toNat % 256 := by
  simp only [loByte, BitVec.extractLsb'_toNat, Nat.shiftRight_zero]

end Sys2Proof.Laws
end

