-- ==== Sys2Proof/Laws/PerInstr.lean ====
section
/-! SUPPORT. Per instruction: its encoding is a word its own row of the opcode map selects (spec/30_encoding.md R82, R85,
R93). Before it, the masks under the encoders, and that every instruction's operands fit their fields. -/

namespace Sys2Proof.Laws

open Sys2Proof.Machine

@[simp] theorem xField_fits (x : RegIdx) : (xField x).fits = true := decide_eq_true x.isLt
@[simp] theorem yField_fits (y : RegIdx) : (yField y).fits = true := decide_eq_true y.isLt
@[simp] theorem nField_fits (n : Nibble) : (nField n).fits = true := decide_eq_true n.isLt
@[simp] theorem nnField_fits (nn : Byte) : (nnField nn).fits = true := decide_eq_true nn.isLt
@[simp] theorem nnnField_fits (nnn : Addr12) : (nnnField nnn).fits = true := decide_eq_true nnn.isLt

/-- The operand types have the widths of the fields: every instruction passes the operand check (R81, R246). -/
theorem wellFormed_all (i : Instr) : i.wellFormed = true := by
  cases i <;> simp [Instr.wellFormed, fieldsOf]

theorem encNNN_mask (p : Word) (nnn : Addr12) : encNNN p nnn &&& 0xF000 = p &&& 0xF000 := by
  ext j hj
  simp only [encNNN, BitVec.getElem_and, BitVec.getElem_or]
  interval_cases j <;> simp

theorem encXNN_mask (p : Word) (x : RegIdx) (nn : Byte) : encXNN p x nn &&& 0xF000 = p &&& 0xF000 := by
  ext j hj
  simp only [encXNN, BitVec.getElem_and, BitVec.getElem_or]
  interval_cases j <;> simp

theorem encXYN_mask (p : Word) (x y : RegIdx) (n : Nibble) : encXYN p x y n &&& 0xF000 = p &&& 0xF000 := by
  ext j hj
  simp only [encXYN, BitVec.getElem_and, BitVec.getElem_or]
  interval_cases j <;> simp

theorem encXY_mask (p : Word) (x y : RegIdx) : encXYN p x y 0 &&& 0xF00F = p &&& 0xF00F := by
  ext j hj
  simp only [encXYN, BitVec.getElem_and, BitVec.getElem_or]
  interval_cases j <;> simp

theorem encX_mask (p : Word) (x : RegIdx) : encX p x &&& 0xF0FF = p &&& 0xF0FF := by
  ext j hj
  simp only [encX, BitVec.getElem_and, BitVec.getElem_or]
  interval_cases j <;> simp

/-- The encoding of the instruction is selected by its row, which is a row of the opcode map. -/
def OpcodeMapRow.Statement (i : Instr) : Prop := (rowOf i).selects (encode i) = true ∧ rowOf i ∈ opcodeRows

theorem rowOf_mem_of_masked {i i' : Instr} {w : Word} (hw : w &&& (rowOf i').mask = (rowOf i').pattern)
    (he : encode i = w) (hr : rowOf i = rowOf i') (hm : i' ∈ instrOfEachRow) : OpcodeMapRow.Statement i := by
  refine ⟨?_, ?_⟩
  · rw [he, hr, OpcodeRow.selects, hw]; simp
  · rw [hr]; exact List.mem_map_of_mem hm

theorem OpcodeMapRow.cls : OpcodeMapRow.Statement .cls := ⟨by decide, by decide⟩

theorem OpcodeMapRow.ret : OpcodeMapRow.Statement .ret := ⟨by decide, by decide⟩

theorem OpcodeMapRow.jp (nnn : Addr12) : OpcodeMapRow.Statement (.jp nnn) :=
  rowOf_mem_of_masked (i' := .jp 0) (encNNN_mask _ _) rfl rfl (by decide)

theorem OpcodeMapRow.call (nnn : Addr12) : OpcodeMapRow.Statement (.call nnn) :=
  rowOf_mem_of_masked (i' := .call 0) (encNNN_mask _ _) rfl rfl (by decide)

theorem OpcodeMapRow.seImm (x : RegIdx) (nn : Byte) : OpcodeMapRow.Statement (.seImm x nn) :=
  rowOf_mem_of_masked (i' := .seImm 0 0) (encXNN_mask _ _ _) rfl rfl (by decide)

theorem OpcodeMapRow.sneImm (x : RegIdx) (nn : Byte) : OpcodeMapRow.Statement (.sneImm x nn) :=
  rowOf_mem_of_masked (i' := .sneImm 0 0) (encXNN_mask _ _ _) rfl rfl (by decide)

theorem OpcodeMapRow.seReg (x y : RegIdx) : OpcodeMapRow.Statement (.seReg x y) :=
  rowOf_mem_of_masked (i' := .seReg 0 0) (encXY_mask _ _ _) rfl rfl (by decide)

theorem OpcodeMapRow.ldImm (x : RegIdx) (nn : Byte) : OpcodeMapRow.Statement (.ldImm x nn) :=
  rowOf_mem_of_masked (i' := .ldImm 0 0) (encXNN_mask _ _ _) rfl rfl (by decide)

theorem OpcodeMapRow.addImm (x : RegIdx) (nn : Byte) : OpcodeMapRow.Statement (.addImm x nn) :=
  rowOf_mem_of_masked (i' := .addImm 0 0) (encXNN_mask _ _ _) rfl rfl (by decide)

theorem OpcodeMapRow.ldReg (x y : RegIdx) : OpcodeMapRow.Statement (.ldReg x y) :=
  rowOf_mem_of_masked (i' := .ldReg 0 0) (encXY_mask _ _ _) rfl rfl (by decide)

theorem OpcodeMapRow.orReg (x y : RegIdx) : OpcodeMapRow.Statement (.orReg x y) :=
  rowOf_mem_of_masked (i' := .orReg 0 0) (encXY_mask _ _ _) rfl rfl (by decide)

theorem OpcodeMapRow.andReg (x y : RegIdx) : OpcodeMapRow.Statement (.andReg x y) :=
  rowOf_mem_of_masked (i' := .andReg 0 0) (encXY_mask _ _ _) rfl rfl (by decide)

theorem OpcodeMapRow.xorReg (x y : RegIdx) : OpcodeMapRow.Statement (.xorReg x y) :=
  rowOf_mem_of_masked (i' := .xorReg 0 0) (encXY_mask _ _ _) rfl rfl (by decide)

theorem OpcodeMapRow.addReg (x y : RegIdx) : OpcodeMapRow.Statement (.addReg x y) :=
  rowOf_mem_of_masked (i' := .addReg 0 0) (encXY_mask _ _ _) rfl rfl (by decide)

theorem OpcodeMapRow.subReg (x y : RegIdx) : OpcodeMapRow.Statement (.subReg x y) :=
  rowOf_mem_of_masked (i' := .subReg 0 0) (encXY_mask _ _ _) rfl rfl (by decide)

theorem OpcodeMapRow.shr (x y : RegIdx) : OpcodeMapRow.Statement (.shr x y) :=
  rowOf_mem_of_masked (i' := .shr 0 0) (encXY_mask _ _ _) rfl rfl (by decide)

theorem OpcodeMapRow.subnReg (x y : RegIdx) : OpcodeMapRow.Statement (.subnReg x y) :=
  rowOf_mem_of_masked (i' := .subnReg 0 0) (encXY_mask _ _ _) rfl rfl (by decide)

theorem OpcodeMapRow.shl (x y : RegIdx) : OpcodeMapRow.Statement (.shl x y) :=
  rowOf_mem_of_masked (i' := .shl 0 0) (encXY_mask _ _ _) rfl rfl (by decide)

theorem OpcodeMapRow.sneReg (x y : RegIdx) : OpcodeMapRow.Statement (.sneReg x y) :=
  rowOf_mem_of_masked (i' := .sneReg 0 0) (encXY_mask _ _ _) rfl rfl (by decide)

theorem OpcodeMapRow.ldI (nnn : Addr12) : OpcodeMapRow.Statement (.ldI nnn) :=
  rowOf_mem_of_masked (i' := .ldI 0) (encNNN_mask _ _) rfl rfl (by decide)

theorem OpcodeMapRow.jpV0 (nnn : Addr12) : OpcodeMapRow.Statement (.jpV0 nnn) :=
  rowOf_mem_of_masked (i' := .jpV0 0) (encNNN_mask _ _) rfl rfl (by decide)

theorem OpcodeMapRow.rnd (x : RegIdx) (nn : Byte) : OpcodeMapRow.Statement (.rnd x nn) :=
  rowOf_mem_of_masked (i' := .rnd 0 0) (encXNN_mask _ _ _) rfl rfl (by decide)

theorem OpcodeMapRow.drw (x y : RegIdx) (n : Nibble) : OpcodeMapRow.Statement (.drw x y n) :=
  rowOf_mem_of_masked (i' := .drw 0 0 0) (encXYN_mask _ _ _ _) rfl rfl (by decide)

theorem OpcodeMapRow.skp (x : RegIdx) : OpcodeMapRow.Statement (.skp x) :=
  rowOf_mem_of_masked (i' := .skp 0) (encX_mask _ _) rfl rfl (by decide)

theorem OpcodeMapRow.sknp (x : RegIdx) : OpcodeMapRow.Statement (.sknp x) :=
  rowOf_mem_of_masked (i' := .sknp 0) (encX_mask _ _) rfl rfl (by decide)

theorem OpcodeMapRow.ldVxDt (x : RegIdx) : OpcodeMapRow.Statement (.ldVxDt x) :=
  rowOf_mem_of_masked (i' := .ldVxDt 0) (encX_mask _ _) rfl rfl (by decide)

theorem OpcodeMapRow.ldVxK (x : RegIdx) : OpcodeMapRow.Statement (.ldVxK x) :=
  rowOf_mem_of_masked (i' := .ldVxK 0) (encX_mask _ _) rfl rfl (by decide)

theorem OpcodeMapRow.ldDtVx (x : RegIdx) : OpcodeMapRow.Statement (.ldDtVx x) :=
  rowOf_mem_of_masked (i' := .ldDtVx 0) (encX_mask _ _) rfl rfl (by decide)

theorem OpcodeMapRow.ldStVx (x : RegIdx) : OpcodeMapRow.Statement (.ldStVx x) :=
  rowOf_mem_of_masked (i' := .ldStVx 0) (encX_mask _ _) rfl rfl (by decide)

theorem OpcodeMapRow.addI (x : RegIdx) : OpcodeMapRow.Statement (.addI x) :=
  rowOf_mem_of_masked (i' := .addI 0) (encX_mask _ _) rfl rfl (by decide)

theorem OpcodeMapRow.ldF (x : RegIdx) : OpcodeMapRow.Statement (.ldF x) :=
  rowOf_mem_of_masked (i' := .ldF 0) (encX_mask _ _) rfl rfl (by decide)

theorem OpcodeMapRow.ldB (x : RegIdx) : OpcodeMapRow.Statement (.ldB x) :=
  rowOf_mem_of_masked (i' := .ldB 0) (encX_mask _ _) rfl rfl (by decide)

theorem OpcodeMapRow.stRegs (x : RegIdx) : OpcodeMapRow.Statement (.stRegs x) :=
  rowOf_mem_of_masked (i' := .stRegs 0) (encX_mask _ _) rfl rfl (by decide)

theorem OpcodeMapRow.ldRegs (x : RegIdx) : OpcodeMapRow.Statement (.ldRegs x) :=
  rowOf_mem_of_masked (i' := .ldRegs 0) (encX_mask _ _) rfl rfl (by decide)

end Sys2Proof.Laws
end

