-- ==== Sys2Proof/Laws/Step.lean ====
section
/-! SUPPORT. What one step can do, said once (spec/40_step_cycle.md R112), and for each instruction whose sub-steps may
fail every state it can leave. -/

namespace Sys2Proof.Laws

open Sys2Proof.Machine

/-- The decoder's only error names the word (R86). -/
theorem decode_error {op : Word} {e : DecodeError} (h : decode op = .error e) : e = .unknown op := by
  unfold decode at h
  split at h <;> try (cases h)
  · unfold decodeClass0 at h; split at h; cases h; split at h; cases h; injection h with h; exact h.symm
  · split at h; cases h; injection h with h; exact h.symm
  · unfold decodeClass8 at h; split at h <;> first | (cases h; done) | (injection h with h; exact h.symm)
  · split at h; cases h; injection h with h; exact h.symm
  · unfold decodeClassE at h; split at h; cases h; split at h; cases h; injection h with h; exact h.symm
  · unfold decodeClassF at h
    iterate 9
      split at h
      · cases h
    injection h with h; exact h.symm

/-- Every way a step goes: a wait step; a fetch out of bounds; a word that is no instruction; an instruction. -/
theorem step_cases (s : State) :
    (s.waitValid = true ∧ step s = waitStep (deliver s)) ∨
    (s.waitValid = false ∧ 0xFFF < s.pc.toNat + 1 ∧
      step s = raise (.outOfBounds (max s.pc.toNat 0x1000)) (deliver s)) ∨
    (s.waitValid = false ∧ s.pc.toNat + 1 ≤ 0xFFF ∧ (∀ i, decode (wordAt s.mem s.pc.toNat) ≠ .ok i) ∧
      step s = raise (.unknownOpcode (wordAt s.mem s.pc.toNat)) (advance (deliver s))) ∨
    (s.waitValid = false ∧ s.pc.toNat + 1 ≤ 0xFFF ∧ ∃ i, decode (wordAt s.mem s.pc.toNat) = .ok i ∧
      step s = exec i (advance (deliver s))) := by
  cases hw : s.waitValid with
  | true => exact .inl ⟨rfl, by simp [step, hw]⟩
  | false =>
    refine .inr ?_
    by_cases hp : s.pc.toNat + 1 ≤ 0xFFF
    · refine .inr ?_
      have hf : fetch (deliver s) = .done (wordAt s.mem s.pc.toNat) (deliver s) := by
        rw [fetch_spec, deliver_pc, deliver_mem, if_pos hp]
      cases hd : decode (wordAt s.mem s.pc.toNat) with
      | ok i => exact .inr ⟨rfl, hp, i, rfl, by simp [step, hw, hf, hd]⟩
      | error e =>
        refine .inl ⟨rfl, hp, by simp, ?_⟩
        have := decode_error hd
        subst this
        simp [step, hw, hf, hd]
    · refine .inl ⟨rfl, by omega, ?_⟩
      have hf := fetch_spec (deliver s)
      rw [deliver_pc, if_neg hp] at hf
      simp [step, hw, hf]

/-- Every state a wait step leaves (R116). -/
theorem waitStep_next {s t : State} (h : waitStep s = .next t) :
   (firstKey s.keys = none ∧ t = s.setResult (.sideEffects false s.waitValid)) ∨
   ∃ k, firstKey s.keys = some k ∧
      t = ((s.setReg s.waitReg (BitVec.ofNat 8 k)).setWait false s.waitReg).setResult (.sideEffects false false) := by
  unfold waitStep at h
  rw [complete_eq] at h
  injection h with h
  subst h
  cases hk : firstKey s.keys with
  | none => exact .inl ⟨rfl, rfl⟩
  | some k => exact .inr ⟨k, rfl, rfl⟩

/-- Every state 00EE leaves: SP stays, or goes down where the stack is not empty (R131, R132). -/
theorem ret_next {s t : State} (h : execRet s = .next t) :
    ∃ sp pc r, t = ((s.setSp sp).setPc pc).setResult r ∧ (sp = s.sp ∧ pc = s.pc ∨ s.sp ≠ stackBase ∧ sp = s.sp - 2) := by
  rcases finish_eq_next h with ⟨u, hu, rfl⟩ | ⟨e, u, hu, rfl⟩
  · rw [andThen_eq_done] at hu
    obtain ⟨w, v, hv, hw⟩ := hu
    unfold pop at hv
    split at hv
    · cases hv
    · rw [memReadWord_spec] at hv
      split at hv
      · rename_i hne _
        injection hv with hv1 hv2; injection hw with hw1 hw2; subst hv2 hw2
        exact ⟨_, _, _, rfl, .inr ⟨hne, rfl⟩⟩
      · cases hv
  · rw [andThen_eq_failed] at hu
    rcases hu with hv | ⟨w, v, hv, hw⟩
    · unfold pop at hv
      split at hv
      · injection hv with hv1 hv2; subst hv2
        exact ⟨s.sp, s.pc, _, rfl, .inl ⟨rfl, rfl⟩⟩
      · rw [memReadWord_spec] at hv
        split at hv
        · cases hv
        · rename_i hne _
          injection hv with hv1 hv2; subst hv2
          exact ⟨_, s.pc, _, rfl, .inr ⟨hne, rfl⟩⟩
    · cases hw

/-- Every state 2NNN leaves: SP stays, or goes up where the stack is not full (R130, R134). -/
theorem call_next {nnn : Addr12} {s t : State} (h : execCall nnn s = .next t) :
    ∃ m sp pc r, t = (((s.setMem m).setSp sp).setPc pc).setResult r ∧
    (Memory.wf s.mem = true → Memory.wf m = true) ∧
    (sp = s.sp ∨ s.sp ≠ stackLimit ∧ sp = s.sp + 2) := by
  have hp : (∃ u, push s.pc s = .done () u ∧ ∃ m, u = (s.setMem m).setSp (s.sp + 2) ∧ s.sp ≠ stackLimit ∧
      (Memory.wf s.mem = true → Memory.wf m = true)) ∨
     (∃ e m, push s.pc s = .failed e (s.setMem m) ∧ (Memory.wf s.mem = true → Memory.wf m = true)) := by
    unfold push
    split
    · exact .inr ⟨_, s.mem, rfl, id⟩
    · rename_i hne
      rcases memWriteWord_cases s.sp.toNat s.pc s with ⟨m, hm, hw⟩ | ⟨e, m, hm, hw, -⟩
      · exact .inl ⟨_, by rw [hm]; rfl, m, rfl, hne, hw⟩
      · exact .inr ⟨e, m, by rw [hm]; rfl, hw⟩
  unfold execCall at h
  rcases hp with ⟨u, hu, m, rfl, hne, hw⟩ | ⟨e, m, hu, hw⟩
  · rw [hu, andThen_done, finish_done] at h
    injection h with h
    exact ⟨m, _, _, _, h.symm, hw, .inr ⟨hne, rfl⟩⟩
  · rw [hu, andThen_failed, finish_failed] at h
    exact ⟨m, s.sp, s.pc, _, raise_eq_next h, hw, .inl rfl⟩

/-- Every state FX33 and FX55 leave: memory is all that changes, and it stays canonical (R183, R184). -/
theorem store_next {a : Nat} {bs : List Byte} {s t : State} (h : finish false (storeBytes a bs s) = .next t) :
    ∃ m r, t = (s.setMem m).setResult r ∧ (Memory.wf s.mem = true → Memory.wf m = true) := by
  rw [storeBytes_spec] at h
  split at h
  · rename_i hc
    rw [finish_done] at h
    injection h with h
    refine ⟨_, _, h.symm, fun hw => ?_⟩
    rcases hc with rfl | hc
    · exact hw
    · exact wf_writeAll _ hw hc
  · rename_i hc
    rw [finish_failed] at h
    refine ⟨_, _, raise_eq_next h, fun hw => ?_⟩
    by_cases ha : a ≤ 0x1000
    · exact wf_writeAll _ hw (by simp [memSize]; omega)
    · simpa [show 0x1000 - a = 0 by omega, Memory.writeAll] using hw

/-- Every state FX65 leaves: V0 to VX are all that changes (R185). -/
theorem load_next {x : RegIdx} {s t : State} (h : execLdRegs x s = .next t) :
    ∃ v r, t = ({ s with v := v } : State).setResult r ∧ (∀ j, ¬ j ≤ x → (t.reg j) = s.reg j) := by
  unfold execLdRegs at h
  rw [loadBytes_spec] at h
  split at h
  · rw [finish_done] at h
    injection h with h
    refine ⟨_, _, by rw [← h]; rw [loadAll_frame], fun j hj => ?_⟩
    rw [← h]; simp only [setResult_reg]
    exact loadAll_reg_of_not_mem _ _ _ _ (by rwa [mem_regsUpTo])
  · rw [finish_failed] at h
    have h := raise_eq_next h
    refine ⟨_, _, by rw [h]; rw [loadAll_frame], fun j hj => ?_⟩
    rw [h]; simp only [setResult_reg]
    exact loadAll_reg_of_not_mem _ _ _ _ (fun hm => hj (mem_regsUpTo.mp (List.mem_of_mem_take hm)))

/-- Every state DXYN leaves (R201). -/
theorem drw_next {x y : RegIdx} {n : Nibble} {s t : State} (h : execDrw x y n s = .next t) :
    ∃ u r, t = u.setResult r ∧ DrawFrame (s.setFlag false) u := by
  unfold execDrw at h
  rcases drawRows_spec n.toNat (indexBase s) (s.reg x).toNat (s.reg y).toNat (s.setFlag false) with
    ⟨-, u, hu, hf⟩ | ⟨-, u, hu, hf⟩
  · rw [hu, finish_done] at h; injection h with h; exact ⟨u, _, h.symm, hf⟩
  · rw [hu, finish_failed] at h; exact ⟨u, _, raise_eq_next h, hf⟩

end Sys2Proof.Laws
end

