-- ==== Sys2Proof/Tests/Slice0.lean ====
section
/-! SUPPORT. This model's own tests: the ill-formed terms the checks refuse, one written-out word per constructor, one
step of each instruction on the vectors of spec/95_test_vectors.md, and for every statement with hypotheses a state and
operands that meet them. -/

namespace Sys2Proof.Tests

open Sys2Proof.Machine

/-! ### Helpers -/

/-- The start state of the spec's vectors, with one input waiting: no tick, the keys and the random byte. -/
def start (keys : BitVec 16) (rnd : Byte) : State := { State.reset with inputs := [⟨0, keys, rnd⟩] }

/-- The start state with no key down and random byte 0. -/
def quiet : State := start 0 0

/-- The state one step leaves, if it leaves one. -/
def after (s : State) : Option State :=
  match step s with
  | .next t    => some t
  | .fault _   => none
  | .refused _ => none

/-- One step from `s` with the word placed where it is fetched. -/
def run (w : Nat) (s : State) : Option State := after (s.withFetchWord 16 w)

/-- One byte of memory set. -/
def poke (a : Nat) (b : Byte) (s : State) : State := s.setMem (Memory.write s.mem a b)

/-- One byte of memory. -/
def peek (s : State) (a : Nat) : Byte := Memory.read s.mem a

/-! ### WellFormed: each check refuses an ill-formed term -/

theorem test_wf_class0_refused : wellFormedWord 0x00E1 = false := by decide
theorem test_wf_class5_refused : wellFormedWord 0x5121 = false := by decide
theorem test_wf_class8_refused : wellFormedWord 0x8128 = false := by decide
theorem test_wf_class9_refused : wellFormedWord 0x9001 = false := by decide
theorem test_wf_classE_refused : wellFormedWord 0xE19F = false := by decide
theorem test_wf_classF_refused : wellFormedWord 0xF130 = false := by decide
theorem test_wf_word_accepted : wellFormedWord 0x812E = true := by decide
theorem test_wf_x_refused : Field.fits ⟨11, 8, 16⟩ = false := by decide
theorem test_wf_y_refused : Field.fits ⟨7, 4, 16⟩ = false := by decide
theorem test_wf_n_refused : Field.fits ⟨3, 0, 16⟩ = false := by decide
theorem test_wf_nn_refused : Field.fits ⟨7, 0, 256⟩ = false := by decide
theorem test_wf_nnn_refused : Field.fits ⟨11, 0, 4096⟩ = false := by decide
theorem test_wf_nnn_accepted : Field.fits ⟨11, 0, 4095⟩ = true := by decide
theorem test_wf_rom_refused : romFits (List.replicate 3233 0) = false := by
  rw [romFits, List.length_replicate]; decide
theorem test_wf_rom_accepted : romFits (List.replicate 3232 0) = true := by
  rw [romFits, List.length_replicate]; decide
theorem test_wf_memory_order_refused : Memory.wf [(0x201, 1), (0x200, 1)] = false := by decide
theorem test_wf_memory_unlisted_refused : Memory.wf [(0x000, 0xF0)] = false := by decide
theorem test_wf_memory_address_refused : Memory.wf [(0x1000, 1)] = false := by decide

/-! ### Decoding: words written out from the encodings of R85 (class, X, Y, N or NN or NNN, in hexadecimal digits) -/

theorem test_decode_cls : decodeTableWord 16 0x00E0 = some (.cls) := by decide
theorem test_decode_ret : decodeTableWord 16 0x00EE = some (.ret) := by decide
theorem test_decode_jp : decodeTableWord 16 0x1ABC = some (.jp 0xABC) := by decide
theorem test_decode_call : decodeTableWord 16 0x2210 = some (.call 0x210) := by decide
theorem test_decode_seImm : decodeTableWord 16 0x332A = some (.seImm 3 0x2A) := by decide
theorem test_decode_sneImm : decodeTableWord 16 0x45C1 = some (.sneImm 5 0xC1) := by decide
theorem test_decode_seReg : decodeTableWord 16 0x5120 = some (.seReg 1 2) := by decide
theorem test_decode_ldImm : decodeTableWord 16 0x6A3C = some (.ldImm 0xA 0x3C) := by decide
theorem test_decode_addImm : decodeTableWord 16 0x7005 = some (.addImm 0 5) := by decide
theorem test_decode_ldReg : decodeTableWord 16 0x8120 = some (.ldReg 1 2) := by decide
theorem test_decode_orReg : decodeTableWord 16 0x83F1 = some (.orReg 3 0xF) := by decide
theorem test_decode_andReg : decodeTableWord 16 0x8452 = some (.andReg 4 5) := by decide
theorem test_decode_xorReg : decodeTableWord 16 0x8673 = some (.xorReg 6 7) := by decide
theorem test_decode_addReg : decodeTableWord 16 0x8894 = some (.addReg 8 9) := by decide
theorem test_decode_subReg : decodeTableWord 16 0x8AB5 = some (.subReg 0xA 0xB) := by decide
theorem test_decode_shr : decodeTableWord 16 0x8CD6 = some (.shr 0xC 0xD) := by decide
theorem test_decode_subnReg : decodeTableWord 16 0x8EF7 = some (.subnReg 0xE 0xF) := by decide
theorem test_decode_shl : decodeTableWord 16 0x830E = some (.shl 3 0) := by decide
theorem test_decode_sneReg : decodeTableWord 16 0x9120 = some (.sneReg 1 2) := by decide
theorem test_decode_ldI : decodeTableWord 16 0xA2F0 = some (.ldI 0x2F0) := by decide
theorem test_decode_jpV0 : decodeTableWord 16 0xB3F1 = some (.jpV0 0x3F1) := by decide
theorem test_decode_rnd : decodeTableWord 16 0xC30F = some (.rnd 3 0x0F) := by decide
theorem test_decode_drw : decodeTableWord 16 0xD015 = some (.drw 0 1 5) := by decide
theorem test_decode_skp : decodeTableWord 16 0xE29E = some (.skp 2) := by decide
theorem test_decode_sknp : decodeTableWord 16 0xE4A1 = some (.sknp 4) := by decide
theorem test_decode_ldVxDt : decodeTableWord 16 0xF507 = some (.ldVxDt 5) := by decide
theorem test_decode_ldVxK : decodeTableWord 16 0xF30A = some (.ldVxK 3) := by decide
theorem test_decode_ldDtVx : decodeTableWord 16 0xF615 = some (.ldDtVx 6) := by decide
theorem test_decode_ldStVx : decodeTableWord 16 0xF718 = some (.ldStVx 7) := by decide
theorem test_decode_addI : decodeTableWord 16 0xF11E = some (.addI 1) := by decide
theorem test_decode_ldF : decodeTableWord 16 0xF429 = some (.ldF 4) := by decide
theorem test_decode_ldB : decodeTableWord 16 0xF833 = some (.ldB 8) := by decide
theorem test_decode_stRegs : decodeTableWord 16 0xF255 = some (.stRegs 2) := by decide
theorem test_decode_ldRegs : decodeTableWord 16 0xFF65 = some (.ldRegs 0xF) := by decide

/-- The bytes of a word, high byte first, and a byte stream decoded (R56, R91). -/
theorem test_decode_stream :
    decodeBytes [0xD0, 0x15, 0x60] = .ok (.drw 0 1 5, [0x60]) ∧ decodeBytes [0x60] = .error .truncated := by decide

/-- The bytes an encoded program has (R91, scenario A of S7). -/
theorem test_encode_scenario_a :
    encodeProgram [.ldImm 0 5, .ldImm 1 3, .addReg 0 1] = [0x60, 0x05, 0x61, 0x03, 0x80, 0x14] := by decide

/-! ### One step of each instruction, on the vectors of spec/95_test_vectors.md -/

/-- T7.1. -/
theorem test_step_cls :
    (run 0x00E0 (State.setReg (poke 0xFFF 0x01 (poke 0xF00 0xF0 quiet)) 0xF 5)).map (fun t => (peek t 0xF00, peek t 0xFFF, t.reg 0xF, t.result)) = some (0x00, 0x00, 0x05, .sideEffects true false) := by decide +kernel

/-- T2.6. -/
theorem test_step_ret :
    (run 0x00EE (State.setSp (poke 0xEA1 0x34 (poke 0xEA0 0x12 quiet)) 0xEA2)).map (fun t => (t.sp, t.pc)) = some (0xEA0, 0x1234) := by decide

/-- T2.7. -/
theorem test_step_ret_empty :
    (run 0x00EE (quiet)).map (fun t => (t.sp, t.pc, t.result)) = some (0xEA0, 0x202, .error .stackUnderflow) := by decide

/-- T2.1. -/
theorem test_step_jp :
    (run 0x1ABC (quiet)).map (fun t => t.pc) = some 0xABC := by decide

/-- T2.5. -/
theorem test_step_call :
    (run 0x2ABC (State.setPc quiet 0xFFE)).map (fun t => (peek t 0xEA0, peek t 0xEA1, t.sp, t.pc)) = some (0x10, 0x00, 0xEA2, 0xABC) := by decide

/-- T2.14. -/
theorem test_step_call_full :
    (run 0x2ABC (State.setSp quiet 0xEC0)).map (fun t => (t.sp, t.pc, t.result)) = some (0xEC0, 0x202, .error .stackOverflow) := by decide

/-- T2.13. -/
theorem test_step_jpV0 :
    (run 0xBFFF (State.setReg (quiet) 0x0 0xFF)).map (fun t => t.pc) = some 0x10FE := by decide

/-- T3.3. -/
theorem test_step_seImm :
    (run 0x3F01 (State.setReg (quiet) 0xF 1)).map (fun t => t.pc) = some 0x204 := by decide

/-- T3.2. -/
theorem test_step_seImm_not :
    (run 0x332A (State.setReg (quiet) 0x3 0x2B)).map (fun t => t.pc) = some 0x202 := by decide

/-- T3.6. -/
theorem test_step_sneImm :
    (run 0x432A (State.setReg (quiet) 0x3 0)).map (fun t => t.pc) = some 0x204 := by decide

/-- T3.5. -/
theorem test_step_sneImm_not :
    (run 0x40FF (State.setReg (quiet) 0x0 0xFF)).map (fun t => t.pc) = some 0x202 := by decide

/-- T3.7. -/
theorem test_step_seReg :
    (run 0x5AA0 (State.setReg (quiet) 0xA 9)).map (fun t => t.pc) = some 0x204 := by decide

/-- T3.8. -/
theorem test_step_seReg_not :
    (run 0x5AB0 (State.setReg (State.setReg (quiet) 0xA 9) 0xB 8)).map (fun t => t.pc) = some 0x202 := by decide

/-- T3.10. -/
theorem test_step_sneReg :
    (run 0x9AB0 (State.setReg (State.setReg (quiet) 0xA 9) 0xB 8)).map (fun t => t.pc) = some 0x204 := by decide

/-- T3.9. -/
theorem test_step_sneReg_not :
    (run 0x9AA0 (State.setReg (quiet) 0xA 9)).map (fun t => t.pc) = some 0x202 := by decide

/-- T1.3. -/
theorem test_step_ldImm :
    (run 0x6A55 (State.setPc quiet 0xFFE)).map (fun t => (t.reg 0xA, t.pc)) = some (0x55, 0x1000) := by decide

/-- T4.2. -/
theorem test_step_addImm :
    (run 0x7001 (State.setReg (State.setReg (quiet) 0x0 0xFF) 0xF 7)).map (fun t => (t.reg 0, t.reg 0xF)) = some (0x00, 0x07) := by decide

/-- T4.4. -/
theorem test_step_ldReg :
    (run 0x8120 (State.setReg (State.setReg (State.setReg (quiet) 0x1 1) 0x2 0xAB) 0xF 9)).map (fun t => (t.reg 1, t.reg 2, t.reg 0xF)) = some (0xAB, 0xAB, 0x09) := by decide

/-- T4.6. -/
theorem test_step_orReg :
    (run 0x8121 (State.setReg (State.setReg (State.setReg (quiet) 0x1 0xA0) 0x2 0x0A) 0xF 5)).map (fun t => (t.reg 1, t.reg 0xF)) = some (0xAA, 0x05) := by decide

/-- T4.7. -/
theorem test_step_andReg :
    (run 0x8122 (State.setReg (State.setReg (State.setReg (quiet) 0x1 0xAC) 0x2 0xCA) 0xF 5)).map (fun t => (t.reg 1, t.reg 0xF)) = some (0x88, 0x05) := by decide

/-- T4.8. -/
theorem test_step_xorReg :
    (run 0x8123 (State.setReg (State.setReg (State.setReg (quiet) 0x1 0xAC) 0x2 0xCA) 0xF 5)).map (fun t => (t.reg 1, t.reg 0xF)) = some (0x66, 0x05) := by decide

/-- T4.12. -/
theorem test_step_addReg :
    (run 0x8124 (State.setReg (State.setReg (State.setReg (quiet) 0x1 0x80) 0x2 0x7F) 0xF 1)).map (fun t => (t.reg 1, t.reg 0xF)) = some (0xFF, 0x00) := by decide

/-- T4.15. -/
theorem test_step_addReg_f :
    (run 0x8F14 (State.setReg (State.setReg (quiet) 0xF 0xC8) 0x1 0x64)).map (fun t => (t.reg 1, t.reg 0xF)) = some (0x64, 0x01) := by decide

/-- T4.20. -/
theorem test_step_subReg :
    (run 0x8125 (State.setReg (State.setReg (quiet) 0x1 5) 0x2 5)).map (fun t => (t.reg 1, t.reg 0xF)) = some (0x00, 0x01) := by decide

/-- T4.21. -/
theorem test_step_subReg_borrow :
    (run 0x8125 (State.setReg (State.setReg (quiet) 0x1 0x10) 0x2 0x20)).map (fun t => (t.reg 1, t.reg 0xF)) = some (0xF0, 0x00) := by decide

/-- T4.26. -/
theorem test_step_shr :
    (run 0x8126 (State.setReg (State.setReg (quiet) 0x1 1) 0x2 0xF0)).map (fun t => (t.reg 1, t.reg 2, t.reg 0xF)) = some (0x00, 0xF0, 0x01) := by decide

/-- T4.30. -/
theorem test_step_shr_f :
    (run 0x8F26 (State.setReg (quiet) 0xF 2)).map (fun t => t.reg 0xF) = some 0x00 := by decide

/-- T4.32. -/
theorem test_step_subnReg :
    (run 0x8127 (State.setReg (State.setReg (quiet) 0x1 0x10) 0x2 0x20)).map (fun t => (t.reg 1, t.reg 0xF)) = some (0x10, 0x01) := by decide

/-- T4.35. -/
theorem test_step_subnReg_f :
    (run 0x81F7 (State.setReg (State.setReg (quiet) 0x1 2) 0xF 1)).map (fun t => (t.reg 1, t.reg 0xF)) = some (0xFF, 0x00) := by decide

/-- T4.36. -/
theorem test_step_shl :
    (run 0x812E (State.setReg (State.setReg (quiet) 0x1 0x80) 0x2 0x33)).map (fun t => (t.reg 1, t.reg 2, t.reg 0xF)) = some (0x00, 0x33, 0x01) := by decide

/-- T4.40. -/
theorem test_step_shl_f :
    (run 0x8F2E (State.setReg (quiet) 0xF 0x41)).map (fun t => t.reg 0xF) = some 0x00 := by decide

/-- T4.44. -/
theorem test_step_rnd :
    (run 0xCF3C (start 0 0xA5)).map (fun t => t.reg 0xF) = some 0x24 := by decide

/-- T5.1. -/
theorem test_step_ldI :
    (run 0xA000 (State.setI quiet 0x1234)).map (fun t => t.i) = some 0x0000 := by decide

/-- T5.7. -/
theorem test_step_addI :
    (run 0xF11E (State.setI (State.setReg (quiet) 0x1 1) 0xFFFF)).map (fun t => (t.i, t.reg 0xF)) = some (0x0000, 0x01) := by decide

/-- T5.9. -/
theorem test_step_addI_f :
    (run 0xFF1E (State.setI (State.setReg (quiet) 0xF 0xFF) 0x0F00)).map (fun t => (t.i, t.reg 0xF)) = some (0x0FFF, 0x00) := by decide

/-- T5.15. -/
theorem test_step_ldF :
    (run 0xF129 (State.setReg (quiet) 0x1 0xFF)).map (fun t => t.i) = some 0x04FB := by decide

/-- T6.1. -/
theorem test_step_ldB :
    (run 0xF133 (State.setI (State.setReg (quiet) 0x1 0xFF) 0x300)).map (fun t => (peek t 0x300, peek t 0x301, peek t 0x302)) = some (2, 5, 5) := by decide

/-- T6.5. -/
theorem test_step_ldB_end :
    (run 0xF133 (State.setI (State.setReg (quiet) 0x1 0x6D) 0xFFE)).map (fun t => (peek t 0xFFE, peek t 0xFFF, t.result)) = some (1, 0, .error (.outOfBounds 0x1000)) := by decide

/-- T6.9. -/
theorem test_step_stRegs :
    (run 0xF055 (State.setI (State.setReg (State.setReg (quiet) 0x0 0xAB) 0x1 0xCD) 0x400)).map (fun t => (peek t 0x400, peek t 0x401, t.i)) = some (0xAB, 0x00, 0x400) := by decide

/-- T6.11. -/
theorem test_step_stRegs_end :
    (run 0xF255 (State.setI (State.setReg (State.setReg (State.setReg (quiet) 0x0 1) 0x1 2) 0x2 3) 0xFFE)).map (fun t => (peek t 0xFFE, peek t 0xFFF, t.result)) = some (1, 2, .error (.outOfBounds 0x1000)) := by decide

/-- T6.13 (log 4 for the font). -/
theorem test_step_ldRegs :
    (run 0xFF65 (quiet)).map (fun t => (t.reg 0, t.reg 1, t.reg 5, t.reg 0xF)) = some (0xF0, 0x90, 0x20, 0xF0) := by decide

/-- T6.14. -/
theorem test_step_ldRegs_end :
    (run 0xF265 (State.setReg (State.setI (poke 0xFFF 0x22 (poke 0xFFE 0x11 quiet)) 0xFFE) 2 0x77)).map (fun t => (t.reg 0, t.reg 1, t.reg 2, t.result)) = some (0x11, 0x22, 0x77, .error (.outOfBounds 0x1000)) := by decide

/-- T7.4. -/
theorem test_step_drw :
    (run 0xD011 (State.setI (poke 0x300 0xFF (State.setReg (State.setReg (quiet) 0x0 3) 0x1 1)) 0x300)).map (fun t => (peek t 0xF08, peek t 0xF09, t.reg 0xF)) = some (0x1F, 0xE0, 0x00) := by decide

/-- T7.11. -/
theorem test_step_drw_collision :
    (run 0xD011 (State.setI (poke 0x300 0xFF (poke 0xF00 0x18 quiet)) 0x300)).map (fun t => (peek t 0xF00, t.reg 0xF)) = some (0xE7, 0x01) := by decide

/-- T8.3. -/
theorem test_step_skp :
    (run 0xE19E (State.setReg (start 0x0400 0) 1 0x1A)).map (fun t => t.pc) = some 0x204 := by decide

/-- T8.5. -/
theorem test_step_skp_not :
    (run 0xE19E (start 0xFFFE 0)).map (fun t => t.pc) = some 0x202 := by decide

/-- T8.6. -/
theorem test_step_sknp :
    (run 0xE1A1 (start 0xFFFE 0)).map (fun t => t.pc) = some 0x204 := by decide

/-- T8.7. -/
theorem test_step_sknp_not :
    (run 0xE1A1 (State.setReg (start 0x8000 0) 1 0x0F)).map (fun t => t.pc) = some 0x202 := by decide

/-- T8.8. -/
theorem test_step_ldVxK :
    (run 0xF10A (start 0x8010 0)).map (fun t => (t.reg 1, t.pc, t.waitValid)) = some (0x04, 0x202, false) := by decide

/-- T8.10. -/
theorem test_step_ldVxK_wait :
    (run 0xF30A (quiet)).map (fun t => (t.waitValid, t.waitReg, t.pc, t.result)) = some (true, 3, 0x202, .sideEffects false true) := by decide

/-- T9.1. -/
theorem test_step_ldVxDt :
    (run 0xF107 (State.setDt quiet 0xFF)).map (fun t => (t.reg 1, t.dt)) = some (0xFF, 0xFF) := by decide

/-- T9.2. -/
theorem test_step_ldDtVx :
    (run 0xF115 (State.setReg (quiet) 0x1 0xFF)).map (fun t => (t.dt, t.st)) = some (0xFF, 0x00) := by decide

/-- T9.4. -/
theorem test_step_ldStVx :
    (run 0xF118 (State.setReg (quiet) 0x1 2)).map (fun t => (t.st, t.dt)) = some (0x02, 0x00) := by decide

/-! ### The step around the instructions, the driver's inputs, initialisation -/

/-- T1.10: 0NNN is no instruction; PC is advanced. -/
theorem test_unknown_0NNN :
    (run 0x0123 quiet).map (fun t => (t.pc, t.result)) = some (0x202, .error (.unknownOpcode 0x0123)) := by decide

/-- T1.6: a PC beyond memory. -/
theorem test_fetch_beyond :
    (after (State.setPc quiet 0x10FE)).map (fun t => (t.pc, t.result)) =
      some (0x10FE, .error (.outOfBounds 0x10FE)) := by decide

/-- T1.5: the second byte of the fetch is beyond memory. -/
theorem test_fetch_second_byte_beyond :
    (after (State.setPc quiet 0xFFF)).map (fun t => (t.pc, t.result)) =
      some (0xFFF, .error (.outOfBounds 0x1000)) := by decide

/-- U9: a driver that halts stops at the error. -/
theorem test_halting_driver :
    (match step { quiet with cfg := { resetCfg with policy := .halt } } with
     | .fault e => some e
     | _        => none) = some (.unknownOpcode 0x0000) := by decide

/-- The state T8.10 leaves, and a step whose snapshot is given. -/
def waiting (keys : BitVec 16) : State := State.setPc (State.setWait (start keys 0) true 3) 0x202

/-- T8.11: a wait step with no key down. -/
theorem test_wait_goes_on :
    (after (waiting 0)).map (fun t => (t.waitValid, t.pc, t.result)) = some (true, 0x202, .sideEffects false true) := by
  decide

/-- T8.12: a wait step that finds key 4. -/
theorem test_wait_ends :
    (after (waiting 0x0810)).map (fun t => (t.reg 3, t.waitValid, t.pc)) = some (0x04, false, 0x202) := by decide

/-- T9.5, T9.6, T9.7: one tick. -/
theorem test_tick :
    (tick ((quiet.setDt 2).setSt 5)).dt = 1 ∧ (tick ((quiet.setDt 2).setSt 5)).st = 4 ∧
      (tick (quiet.setDt 1)).dt = 0 ∧ (tick quiet).st = 0 := by decide

/-- T9.8: 60 ticks before a step (log 7). -/
theorem test_ticks_before_a_step :
    (after { State.setDt quiet 0x3C with inputs := [⟨60, 0, 0⟩] }).map (fun t => t.dt) = some 0 := by decide

/-- T10.1: initialisation with the program of scenario A. -/
theorem test_initialise :
    (match initialise ResetParams.named [0x60, 0x05, 0x61, 0x03, 0x80, 0x14] with
     | .next t => (peek t 0x200, peek t 0x205, peek t 0x000, peek t 0x04F, t.pc, t.sp)
     | _       => (0, 0, 0, 0, 0, 0)) = (0x60, 0x14, 0xF0, 0x80, 0x200, 0xEA0) := by decide

/-- R5, R281: the font loaded is the machine's FONT. -/
theorem test_initialise_other_font :
    (match initialise { ResetParams.named with cfg := { resetCfg with font := Vector.replicate 80 0x11 } } [] with
     | .next t => (peek t 0x000, peek t 0x04F, peek t 0x050)
     | _       => (0, 0, 0)) = (0x11, 0x11, 0x00) := by decide +kernel

/-- R62: the table's first and last glyph, in the default font. -/
theorem test_default_font :
    defaultFontBytes.take 5 = [0xF0, 0x90, 0x90, 0x90, 0xF0] ∧
      defaultFontBytes.drop 75 = [0xF0, 0x80, 0xF0, 0x80, 0x80] := by decide

/-- R288: with I = 0xF00 and the sprite at (8, 0), row 0 turns the byte at 0xF01 from 0x81 to 0x7E, and row 1, read there
just after, puts 0x7E at 0xF09. -/
theorem test_sprite_in_framebuffer :
    (run 0xD012 (State.setI (poke 0xF01 0x81 (poke 0xF00 0xFF (State.setReg quiet 0 8))) 0xF00)).map
      (fun t => (peek t 0xF01, peek t 0xF09, t.reg 0xF)) = some (0x7E, 0x7E, 0x01) := by decide

/-- R66: the view has the byte drawn. -/
theorem test_view : (framebufferBytes (poke 0xF08 0x1F quiet))[8]? = some 0x1F := by decide

/-- U1: with the other EDGE a pixel beyond the right edge comes in at the left. -/
theorem test_edge_wrap :
    (run 0xD011 (State.setI (poke 0x300 0xFF (State.setReg { quiet with cfg := { resetCfg with edge := .wrap } } 0 60)) 0x300)).map
      (fun t => (peek t 0xF07, peek t 0xF00)) = some (0x0F, 0xF0) := by decide

/-- A row's instruction placed after reset runs as the first one, with free inputs (log 25). -/
theorem test_placed_after_reset :
    (after (State.reset.withFetchWord 16 0x6A55)).map (fun t => (t.reg 0xA, t.pc)) = some (0x55, 0x202) := by decide

/-- Every row's instruction, its operands 0, placed after reset answers a next state as the first step. -/
theorem test_every_row_answers_after_reset :
    (instrOfEachRow.all fun i => (after (State.reset.withFetchWord 16 (encode i).toNat)).isSome) = true := by decide

/-! ### Witnesses: for every statement with hypotheses, states and operands that meet them, clause by clause -/

/-- Meets `EncodeOfDecodeIsTheWord`. -/
theorem test_witness_EncodeOfDecode : decode 0x812E = .ok (.shl 1 2) := by decide

/-- Meets each clause of `DecoderAcceptsExactlyTheOpcodeMap`. -/
theorem test_witness_DecoderAccepts :
    decode 0xFF65 = .ok (.ldRegs 0xF) ∧ wellFormedWord 0xFF65 = true ∧ wellFormedWord 0xFFFF = false := by decide

/-- `OpcodeRowsSelectDisjointWords` speaks of rows that do select words, and two equal rows would make it false. -/
theorem test_witness_OpcodeRows :
    OpcodeRow.mk 0x8000 0xF00F ∈ opcodeRows ∧ OpcodeRow.selects ⟨0x8000, 0xF00F⟩ 0x8FF0 = true ∧
      ¬ List.Pairwise (fun r r' : OpcodeRow => ∀ op : Word, ¬ (r.selects op = true ∧ r'.selects op = true))
        [⟨0x8000, 0xF00F⟩, ⟨0x8000, 0xF00F⟩] := by
  refine ⟨by decide, by decide, fun h => ?_⟩
  exact (List.pairwise_cons.mp h).1 _ (List.mem_singleton.mpr rfl) 0x8FF0 ⟨by decide, by decide⟩

/-- Meets `StepRunsTheDecodedInstruction` at the last fetchable word. -/
theorem test_witness_StepRuns :
    let s := poke 0xFFF 0x55 (poke 0xFFE 0x6A (quiet.setPc 0xFFE))
    s.waitValid = false ∧ s.pc.toNat + 1 ≤ 0xFFF ∧ decode (wordAt s.mem s.pc.toNat) = .ok (.ldImm 0xA 0x55) := by decide

/-- Meets `PlacedWordIsRunNext`. -/
theorem test_witness_PlacedWord : decodeTableWord 16 0xD125 = some (.drw 1 2 5) := by decide

/-- Meets both clauses of `DeliverHandsOverTheNextInput`. -/
theorem test_witness_Deliver : quiet.inputs = ⟨0, 0, 0⟩ :: [] ∧ State.reset.inputs = [] := by decide

/-- Meets `UnknownWordRaisesUnknownOpcode`. -/
theorem test_witness_UnknownWord :
    State.reset.waitValid = false ∧ State.reset.pc.toNat + 1 ≤ 0xFFF ∧
      wellFormedWord (wordAt State.reset.mem State.reset.pc.toNat) = false := by decide

/-- Meets both clauses of `FetchBeyondMemoryRaisesOutOfBounds`, at the boundary. -/
theorem test_witness_FetchBeyond :
    (quiet.setPc 0x1000).waitValid = false ∧ 0xFFF < (quiet.setPc 0x1000).pc.toNat ∧
      (quiet.setPc 0xFFF).waitValid = false ∧ (quiet.setPc 0xFFF).pc.toNat = 0xFFF := by decide

/-- Meets both clauses of `WaitStepTakesTheLeastKeyDown`: no key; key 0; key 15 alone. -/
theorem test_witness_WaitStep :
    (waiting 0).waitValid = true ∧ (deliver (waiting 0)).keys = 0 ∧ (deliver (waiting 1)).keys.getLsbD 0 = true ∧
      (deliver (waiting 0x8000)).keys.getLsbD 15 = true ∧
      ∀ j, j < 15 → (deliver (waiting 0x8000)).keys.getLsbD j = false := by decide

/-- Meets `StoredCodeIsFetchedNext`. -/
theorem test_witness_StoredCode :
    let s := ((quiet.setI 0x200).setReg 0 0x6A).setReg 1 0x55
    s.waitValid = false ∧ s.i = s.pc ∧ s.pc.toNat + 1 ≤ 0xFFF ∧
      decode (wordOfBytes (s.reg 0) (s.reg 1)) = .ok (.ldImm 0xA 0x55) := by decide

/-- Meets `CallPushesTheReturnAddress` with one entry free, and at the end of memory (no run reaches that SP). -/
theorem test_witness_Call :
    (quiet.setSp 0xEBE).sp ≠ 0xEC0 ∧ (quiet.setSp 0xEBE).sp.toNat + 1 ≤ 0xFFF ∧
      (quiet.setSp 0xFFE).sp ≠ 0xEC0 ∧ (quiet.setSp 0xFFE).sp.toNat + 1 ≤ 0xFFF := by decide

/-- Meets `ReturnPopsPc` with one entry and with 16. -/
theorem test_witness_Return :
    (quiet.setSp 0xEA2).sp ≠ 0xEA0 ∧ ((quiet.setSp 0xEA2).sp - 2).toNat + 1 ≤ 0xFFF ∧
      (quiet.setSp 0xEC0).sp ≠ 0xEA0 ∧ ((quiet.setSp 0xEC0).sp - 2).toNat + 1 ≤ 0xFFF := by decide

/-- Meets both clauses of `FullCallAndEmptyReturnRaise`. -/
theorem test_witness_FullCall : (quiet.setSp 0xEC0).sp = 0xEC0 ∧ quiet.sp = 0xEA0 := by decide

/-- Meets `ReturnAfterCallComesBack`, the hypotheses on the later state among them: PC moved on in between. -/
theorem test_witness_ReturnAfterCall :
    spLegal (quiet.setSp 0xEBE) ∧ (quiet.setSp 0xEBE).sp ≠ 0xEC0 ∧
      ∃ t, exec (.call 0x300) (quiet.setSp 0xEBE) = .next t ∧ (t.setPc 0x302).sp = t.sp ∧
        peek (t.setPc 0x302) 0xEBE = peek t 0xEBE ∧ peek (t.setPc 0x302) 0xEBF = peek t 0xEBF :=
  ⟨by unfold spLegal; decide, by decide, _, rfl, rfl, rfl, rfl⟩

/-- Meets both conditions of a skip in `RegisterSkipsFollowTheirCondition`. -/
theorem test_witness_RegisterSkips : quiet.reg 0 = 0x00 ∧ quiet.reg 0 ≠ 0x01 := by decide

/-- Meets both flags of `AddAndSubtractSetVxThenFlag` and `ShiftsSetVxThenFlag`, at their boundaries. -/
theorem test_witness_Flags :
    (0x80 : Byte).toNat + (0x80 : Byte).toNat > 255 ∧ ¬ (0x80 : Byte).toNat + (0x7F : Byte).toNat > 255 ∧
      (0x05 : Byte).toNat ≥ (0x05 : Byte).toNat ∧ ¬ (0x04 : Byte).toNat ≥ (0x05 : Byte).toNat ∧
      (0x01 : Byte).toNat % 2 = 1 ∧ (0x80 : Byte).toNat / 128 = 1 ∧ ¬ (0x7F : Byte).toNat / 128 = 1 := by decide

/-- Meets both flags of `AddIndexSetsIAndFlag`, at their boundary. -/
theorem test_witness_AddIndex :
    (quiet.setI 0x1000).i.toNat + ((quiet.setI 0x1000).reg 0).toNat > 0xFFF ∧
      (quiet.setI 0xFFF).i.toNat + ((quiet.setI 0xFFF).reg 0).toNat ≤ 0xFFF := by decide

/-- Meets `DecimalDigitsAreStoredAtI` at the last such I. -/
theorem test_witness_Digits : (quiet.setI 0xFFD).i.toNat + 2 ≤ 0xFFF := by decide

/-- Meets the three clauses of `DecimalDigitsBeyondMemoryRaise`. -/
theorem test_witness_DigitsBeyond :
    0xFFF < (quiet.setI 0x1000).i.toNat ∧ (quiet.setI 0xFFF).i.toNat = 0xFFF ∧ (quiet.setI 0xFFE).i.toNat = 0xFFE := by
  decide

/-- Meets `RegistersAreStoredFromI`, `RegistersAreLoadedFromI` and `StoreThenLoadRestoresTheRegisters` at the last such
I, for X = F and X = 0. -/
theorem test_witness_RegisterRange :
    (quiet.setI 0xFF0).i.toNat + (0xF : RegIdx).toNat ≤ 0xFFF ∧
      (quiet.setI 0xFFF).i.toNat + (0x0 : RegIdx).toNat ≤ 0xFFF := by decide

/-- Meets the inner hypotheses of `StoreThenLoadRestoresTheRegisters`: V0 is overwritten in between. -/
theorem test_witness_StoreThenLoad :
    ∃ t, exec (.stRegs 1) (quiet.setI 0xFFE) = .next t ∧ (t.setReg 0 9).i = t.i ∧ SameMemory t (t.setReg 0 9) :=
  ⟨_, rfl, rfl, fun _ => rfl⟩

/-- Meets `RegisterStoreBeyondMemoryRaises` and `RegisterLoadBeyondMemoryRaises`: one byte beyond, and I beyond. -/
theorem test_witness_RegisterRangeBeyond :
    0xFFF < (quiet.setI 0xFFE).i.toNat + (0x2 : RegIdx).toNat ∧
      0xFFF < (quiet.setI 0x1000).i.toNat + (0x0 : RegIdx).toNat := by decide

/-- Meets the hypothesis of `DrawChangesVfAndBytesUnderTheSprite`: no rows, wherever I is; the last byte of memory. -/
theorem test_witness_DrawChanges : SpriteInMemory (quiet.setI 0xFFFF) 0 ∧ SpriteInMemory (quiet.setI 0xFFF) 1 :=
  ⟨.inl rfl, .inr (by decide)⟩

/-- Meets `DrawingTwiceRestoresTheScreen` and the first clause of `DrawXorsTheSpriteOntoTheScreen` with the highest sprite,
up to the framebuffer, for both values of EDGE. -/
theorem test_witness_DrawXors (edge : EdgeMode) :
    let s := State.setI { quiet with cfg := { resetCfg with edge := edge } } 0xEF1
    SpriteInMemory s 0xF ∧ SpriteApart s 0 1 0xF ∧ (0 : RegIdx) ≠ 0xF ∧ (1 : RegIdx) ≠ 0xF :=
  ⟨.inr (by simp), fun row h => Laws.not_underSprite_of_lt (by
    have h : row < 15 := h
    change 0xEF1 + row < 0xF00
    omega), by decide, by decide⟩

/-- Meets the same with the sprite's byte in the framebuffer, at 0xFFF, and the sprite drawn at the top left. -/
theorem test_witness_DrawXorsInFramebuffer : SpriteInMemory (quiet.setI 0xFFF) 1 ∧ SpriteApart (quiet.setI 0xFFF) 0 1 1 := by
  refine ⟨.inr (by decide), ?_⟩
  rintro row hrow ⟨bit, row', px, py, h1, h2, h3, h4⟩
  have hrow : row < 1 := hrow
  have h2 : row' < 1 := h2
  have h3 : resolvePixel .clip (0 + bit) (0 + row') = some (px, py) := h3
  have h4 : 0xFFF + row = fbAddr px py := h4
  rw [resolvePixel, if_pos (by omega)] at h3
  injection h3 with h3
  injection h3 with h5 h6
  simp only [fbAddr, fbBase] at h4
  omega

/-- Meets the second clause of `DrawXorsTheSpriteOntoTheScreen`: the 15th row is the last byte of memory. -/
theorem test_witness_DrawRow :
    (0xE : Nibble) ≠ 0xF ∧ (quiet.setI 0xFF1).i.toNat + (0xE : Nibble).toNat + 1 ≤ 0x1000 := by decide

/-- Meets `DrawBeyondMemoryRaises`: one row beyond, and I beyond. -/
theorem test_witness_DrawBeyond :
    (2 : Nibble) ≠ 0 ∧ 0x1000 < (quiet.setI 0xFFF).i.toNat + (2 : Nibble).toNat ∧
      (1 : Nibble) ≠ 0 ∧ 0x1000 < (quiet.setI 0x1000).i.toNat + (1 : Nibble).toNat := by decide

/-- Meets `TogglingAPixelFlipsThatPixelOnly` at the last pixel; its byte is the last of memory. -/
theorem test_witness_Toggle : (63 < 64 ∧ 31 < 32) ∧ fbAddr 63 31 = 0xFFF ∧ fbMask 63 = 0x01 := by decide

/-- Meets both clauses of `KeySkipsFollowTheSelectedKey`. -/
theorem test_witness_KeySkips :
    (withKeys 0x8000 (quiet.setReg 1 0x1F)).keys.getLsbD (((quiet.setReg 1 0x1F).reg 1).toNat % 16) = true ∧
      (withKeys 0x7FFF (quiet.setReg 1 0x1F)).keys.getLsbD (((quiet.setReg 1 0x1F).reg 1).toNat % 16) = false := by decide

/-- Meets both clauses of `KeyWaitTakesAKeyOrWaits`: key 15 alone; no key. -/
theorem test_witness_KeyWait :
    (withKeys 0x8000 quiet).keys.getLsbD 15 = true ∧ (∀ j, j < 15 → (withKeys 0x8000 quiet).keys.getLsbD j = false) ∧
      quiet.keys = 0 := by decide

/-- Meets `InitialiseLoadsFontAndProgram` with the largest image, and `TooLargeAProgramIsRefused` with one byte more. -/
theorem test_witness_Initialise :
    (List.replicate 3232 (0xAB : Byte)).length ≤ 3232 ∧ 3232 < (List.replicate 3233 (0xAB : Byte)).length := by
  rw [List.length_replicate, List.length_replicate]; decide

/-- Meets `ResetMeetsTheInvariant`: a background with one byte of the stack region set. -/
theorem test_witness_ResetMeetsTheInvariant : Memory.wf [(0xEA0, 0x12)] = true := by decide

/-- A state with the invariant in which a key is awaited: the FX0A at 0x200 waits for V3. -/
def awaiting : State := poke 0x201 0x0A (poke 0x200 0xF3 (waiting 0))

/-- Meets the invariant, every part of it: `TickKeepsTheInvariant`, `EveryStepKeepsTheInvariant`. -/
theorem test_witness_Inv : Inv awaiting :=
  ⟨by decide, by unfold spLegal; decide, fun _ => by decide⟩

/-- Meets `EveryStepKeepsTheInvariant`: the step from that state. -/
theorem test_witness_InvStep : Inv awaiting ∧ ∃ t, step awaiting = .next t := ⟨test_witness_Inv, _, rfl⟩

/-- Meets `RegistersChangeOnlyAsTabled`. -/
theorem test_witness_RegistersChange :
    (∃ t, exec (.ldImm 0 1) quiet = .next t) ∧ ¬ writesReg (.ldImm 0 1) 0xF :=
  ⟨⟨_, rfl⟩, by unfold writesReg; decide⟩

/-- Meets `FlagInstructionsAlwaysOverwriteVf`. -/
theorem test_witness_FlagInstructions : setsFlag (.shl 0xF 0) ∧ ∃ t, exec (.shl 0xF 0) quiet = .next t :=
  ⟨trivial, _, rfl⟩

/-- Meets each clause of `SpecialRegistersChangeOnlyByTheirWriters`. -/
theorem test_witness_SpecialRegisters :
    (∃ t, exec (.ldI 0x300) quiet = .next t ∧ t.i ≠ quiet.i) ∧
    (∃ t, exec (.ldDtVx 0) (quiet.setReg 0 1) = .next t ∧ t.dt ≠ quiet.dt) ∧
    (∃ t, exec (.ldStVx 0) (quiet.setReg 0 1) = .next t ∧ t.st ≠ quiet.st) ∧
    (∃ t, exec (.call 0x300) quiet = .next t ∧ t.sp ≠ quiet.sp) ∧
    (∃ t, exec (.ldVxK 3) quiet = .next t ∧ t.waitValid ≠ quiet.waitValid) :=
  ⟨⟨_, rfl, by decide⟩, ⟨_, rfl, by decide⟩, ⟨_, rfl, by decide⟩, ⟨_, rfl, by decide⟩, ⟨_, rfl, by decide⟩⟩

/-- Meets `MemoryChangesOnlyByStoringInstructions`. -/
theorem test_witness_MemoryChanges : (∃ t, exec (.ldRegs 0xF) quiet = .next t) ∧ ¬ writesMemory (.ldRegs 0xF) :=
  ⟨⟨_, rfl⟩, id⟩

/-- Meets `PcChangesOnlyByControlTransfer`: a jump, and a skip. -/
theorem test_witness_PcChanges :
    (∃ t, exec (.jp 0x300) quiet = .next t ∧ t.pc ≠ quiet.pc) ∧
    ∃ t, exec (.seImm 0 0) quiet = .next t ∧ t.pc ≠ quiet.pc :=
  ⟨⟨_, rfl, by decide⟩, ⟨_, rfl, by decide⟩⟩

/-- Meets `OtherInstructionsIgnoreTheKeys` and `OtherInstructionsIgnoreTheRandomByte`. -/
theorem test_witness_Inputs : ¬ readsKeys (.drw 0 1 5) ∧ ∀ x nn, Instr.drw 0 1 5 ≠ .rnd x nn := ⟨id, nofun⟩

/-- Meets both hypotheses of `InstructionsRaiseOnlyTheirOwnErrors`: with a driver that goes on, and one that halts. -/
theorem test_witness_Errors :
    spLegal (quiet.setSp 0xEC0) ∧
    (∃ t, exec (.call 0x300) (quiet.setSp 0xEC0) = .next t ∧ t.result = .error .stackOverflow) ∧
    exec .ret { quiet with cfg := { resetCfg with policy := .halt } } = .fault .stackUnderflow :=
  ⟨by unfold spLegal; decide, ⟨_, rfl, rfl⟩, rfl⟩

end Sys2Proof.Tests
end

section
/-! SUPPORT. The decoder on encoded words (spec/30_encoding.md R84, R92, R93), for every instruction, and the answer of an
instruction that changes PC only (spec/41_control_flow.md R133, R136 to R140). -/

namespace Sys2Proof.Laws

open Sys2Proof.Machine

/-! ### The decoder reads an encoded word back -/

theorem decode_encXYN_class8 {p : Word} (hp : p &&& 0x0FF0 = 0) (hC : opC p = 0x8) (x y : RegIdx) (n : Nibble) :
    decode (encXYN p x y n) = decodeClass8 (encXYN p x y n) := by
  rw [decode, (encXYN_fields hp x y n).1, hC]
  rfl

theorem decode_encX_classE {p : Word} (hp : p &&& 0x0F00 = 0) (hC : opC p = 0xE) (x : RegIdx) :
    decode (encX p x) = decodeClassE (encX p x) := by
  rw [decode, (encX_fields hp x).1, hC]
  rfl

theorem decode_encX_classF {p : Word} (hp : p &&& 0x0F00 = 0) (hC : opC p = 0xF) (x : RegIdx) :
    decode (encX p x) = decodeClassF (encX p x) := by
  rw [decode, (encX_fields hp x).1, hC]
  rfl

/-- Format by format: the class, and within it the low bits, are those of the row's match value, and each field is read
back as it was filled in. -/
theorem decode_encode (i : Instr) : decode (encode i) = .ok i := by
  cases i
  case cls | ret => rfl
  case jp nnn | call nnn | ldI nnn | jpV0 nnn =>
    rw [encode, decode, (encNNN_fields ?_ nnn).1, (encNNN_fields ?_ nnn).2] <;> rfl
  case seImm x nn | sneImm x nn | ldImm x nn | addImm x nn | rnd x nn =>
    rw [encode, decode, (encXNN_fields ?_ x nn).1, (encXNN_fields ?_ x nn).2.1, (encXNN_fields ?_ x nn).2.2] <;> rfl
  case seReg x y | sneReg x y =>
    simp (disch := decide) only [encode, decode, encXYN_fields]
    rfl
  case ldReg x y | orReg x y | andReg x y | xorReg x y | addReg x y | subReg x y | shr x y | subnReg x y | shl x y =>
    rw [encode, decode_encXYN_class8]
    · simp (disch := decide) only [decodeClass8, encXYN_fields]
      rfl
    · rfl
    · rfl
  case drw x y n =>
    simp (disch := decide) only [encode, decode, encXYN_fields]
    simp [opC, opN]
  case skp x | sknp x =>
    rw [encode, decode_encX_classE, decodeClassE, (encX_fields ?_ x).2.1, (encX_fields ?_ x).2.2] <;> rfl
  case ldVxDt x | ldVxK x | ldDtVx x | ldStVx x | addI x | ldF x | ldB x | stRegs x | ldRegs x =>
    rw [encode, decode_encX_classF, decodeClassF, (encX_fields ?_ x).2.1, (encX_fields ?_ x).2.2] <;> rfl

/-- Every instruction is encoded as its row of the opcode map and its fields give it. -/
theorem encodedAs (i : Instr) : EncodedAs i (rowOf i).pattern (rowOf i).mask (encode i) :=
  ⟨rfl, rfl, decode_encode i⟩

/-! ### Instructions that change PC only -/

theorem completes_mono {i : Instr} {s : State} {drew : Bool} {P Q : State → Prop} (h : Completes i s drew P)
    (hPQ : ∀ t, P t → Q t) : Completes i s drew Q := by
  obtain ⟨t, hexec, hresult, hports, hP⟩ := h
  exact ⟨t, hexec, hresult, hports, hPQ t hP⟩

/-- The frame of an instruction that only writes PC, said once for jumps and skips. -/
theorem completes_of_exec_setPc {i : Instr} {s : State} {w : Word} (h : exec i s = complete false (s.setPc w)) :
    Completes i s false fun t => t.pc = w ∧ SameRegs s t ∧ t.i = s.i ∧ SameSpecials s t ∧ SameMemory s t :=
  ⟨_, h, rfl, ⟨rfl, rfl, rfl, rfl, rfl⟩, rfl, fun _ => rfl, rfl, ⟨⟨rfl, rfl, rfl, rfl⟩, rfl⟩, fun _ => rfl⟩

theorem zextAddr_toNat (nnn : Addr12) : (zextAddr nnn).toNat = nnn.toNat :=
  BitVec.toNat_setWidth_of_le (by decide)

theorem jumpsTo_of_exec {i : Instr} {s : State} {w : Word} (h : exec i s = complete false (s.setPc w)) :
    JumpsTo i s w.toNat :=
  completes_mono (completes_of_exec_setPc h) fun _ ⟨hpc, hframe⟩ => ⟨congrArg BitVec.toNat hpc, hframe⟩

/-- A skip on the Boolean `b`, stated for the condition that `b` decides. -/
theorem skipsWhen_of_exec {i : Instr} {s : State} {b : Bool} {condition : Prop}
    (h : exec i s = complete false (skipIf b s)) (hb : b = true ↔ condition) : SkipsWhen i s condition := by
  rw [skipIf_eq] at h
  refine completes_mono (completes_of_exec_setPc h) fun t ⟨hpc, hframe⟩ => ⟨fun hc => ?_, fun hc => ?_, hframe⟩
  · rw [hpc, if_pos (hb.mpr hc), BitVec.toNat_add]
    rfl
  · rw [hpc, if_neg (mt hb.mp hc)]

end Sys2Proof.Laws
end

section
/-! PROOFS. Control flow (spec/41_control_flow.md): the statements about 1NNN and the four register skips. -/

namespace Sys2Proof.Proofs

open Sys2Proof.Machine Sys2Proof.Laws

/-- Settles O17: the encoding is that of its row, and the instruction writes PC only. -/
theorem jumpSetsPc : Obligations.JumpSetsPc := by
  intro s nnn
  refine ⟨encodedAs (.jp nnn), ?_⟩
  rw [← zextAddr_toNat nnn]
  exact jumpsTo_of_exec rfl

/-- Settles O23: the encodings are those of the rows, and each instruction is `skipIf` on its condition. -/
theorem registerSkipsFollowTheirCondition : Obligations.RegisterSkipsFollowTheirCondition := by
  intro s x y nn
  refine ⟨encodedAs (.seImm x nn), encodedAs (.sneImm x nn), encodedAs (.seReg x y), encodedAs (.sneReg x y), ?_⟩
  exact ⟨skipsWhen_of_exec rfl decide_eq_true_iff, skipsWhen_of_exec rfl decide_eq_true_iff,
    skipsWhen_of_exec rfl decide_eq_true_iff, skipsWhen_of_exec rfl decide_eq_true_iff⟩

end Sys2Proof.Proofs
end

section
/-! SUPPORT. The answer of an instruction that writes VX only (spec/42_load_alu.md R151 to R156), and the sum modulo 256
(R164). -/

namespace Sys2Proof.Laws

open Sys2Proof.Machine

/-- The frame of an instruction that only writes VX, said once. VX is set and every other register kept by `setReg_reg`. -/
theorem writesOnlyVx_of_exec {i : Instr} {s : State} {x : RegIdx} {b : Byte}
    (h : exec i s = complete false (s.setReg x b)) : WritesOnlyVx i s x b := by
  refine ⟨_, h, rfl, ⟨rfl, rfl, rfl, rfl, rfl⟩, ?_, fun j hj => ?_, rfl, rfl, ⟨⟨rfl, rfl, rfl, rfl⟩, rfl⟩, fun _ => rfl⟩
  · rw [setResult_reg, setReg_reg, if_pos rfl]
  · rw [setResult_reg, setReg_reg, if_neg hj]

/-- The sum of two bytes, reduced as R164 writes it. -/
theorem byte_add_eq_ofNat_mod (a b : Byte) : a + b = BitVec.ofNat 8 ((a.toNat + b.toNat) % 256) := by
  apply BitVec.eq_of_toNat_eq
  rw [BitVec.toNat_add, BitVec.toNat_ofNat, Nat.mod_mod]

end Sys2Proof.Laws
end

section
/-! PROOFS. Loads and the ALU (spec/42_load_alu.md): the statement about the six instructions that write VX only. -/

namespace Sys2Proof.Proofs

open Sys2Proof.Machine Sys2Proof.Laws

/-- Settles O24: the encodings are those of the rows, and each instruction is one `setReg` of VX. -/
theorem loadsAddImmediateAndBitwiseWriteOnlyVx : Obligations.LoadsAddImmediateAndBitwiseWriteOnlyVx := by
  intro s x y nn
  refine ⟨encodedAs (.ldImm x nn), encodedAs (.addImm x nn), encodedAs (.ldReg x y), encodedAs (.orReg x y),
    encodedAs (.andReg x y), encodedAs (.xorReg x y), ?_⟩
  rw [← byte_add_eq_ofNat_mod]
  exact ⟨writesOnlyVx_of_exec rfl, writesOnlyVx_of_exec rfl, writesOnlyVx_of_exec rfl, writesOnlyVx_of_exec rfl,
    writesOnlyVx_of_exec rfl, writesOnlyVx_of_exec rfl⟩

end Sys2Proof.Proofs
end

section
/-! SUPPORT. The answer of an instruction that writes memory only (spec/20_memory.md), and the cleared framebuffer byte by
byte (spec/44_display.md R200). -/

namespace Sys2Proof.Laws

open Sys2Proof.Machine

/-- The frame of an instruction that only stores a memory, said once. -/
theorem completes_of_exec_setMem {i : Instr} {s : State} {drew : Bool} {m : Memory}
    (h : exec i s = complete drew (s.setMem m)) :
    Completes i s drew fun t => t.mem = m ∧ SameRegs s t ∧ t.i = s.i ∧ t.pc = s.pc ∧ SameSpecials s t :=
  ⟨_, h, rfl, ⟨rfl, rfl, rfl, rfl, rfl⟩, rfl, fun _ => rfl, rfl, rfl, ⟨rfl, rfl, rfl, rfl⟩, rfl⟩

theorem read_clearFramebuffer_inside (m : Memory) {a : Nat} (hlo : 0xF00 ≤ a) (hhi : a ≤ 0xFFF) :
    Memory.read (clearFramebuffer m) a = 0 := by
  rw [read_clearFramebuffer, if_pos ⟨hlo, Nat.lt_succ_of_le hhi⟩]

theorem read_clearFramebuffer_outside (m : Memory) {a : Nat} (ha : ¬ (0xF00 ≤ a ∧ a ≤ 0xFFF)) :
    Memory.read (clearFramebuffer m) a = Memory.read m a := by
  rw [read_clearFramebuffer, if_neg fun ⟨hlo, hhi⟩ => ha ⟨hlo, Nat.le_of_lt_succ hhi⟩]

end Sys2Proof.Laws
end

section
/-! PROOFS. The display (spec/44_display.md): the statement about 00E0. -/

namespace Sys2Proof.Proofs

open Sys2Proof.Machine Sys2Proof.Laws

/-- Settles O37: the encoding is that of its row, and the instruction stores the cleared framebuffer only. -/
theorem clearZeroesTheFramebufferOnly : Obligations.ClearZeroesTheFramebufferOnly := by
  intro s
  refine ⟨encodedAs .cls, completes_mono (completes_of_exec_setMem rfl) fun t ⟨hmem, hframe⟩ => ⟨?_, ?_, hframe⟩⟩
  · intro a hlo hhi
    rw [hmem, read_clearFramebuffer_inside s.mem hlo hhi]
  · intro a ha
    rw [hmem, read_clearFramebuffer_outside s.mem ha]

end Sys2Proof.Proofs
end

section
/-! SUPPORT. The answer of an instruction that writes the timers only (spec/45_keys_timers.md R225, R226). -/

namespace Sys2Proof.Laws

open Sys2Proof.Machine

/-- The frame of an instruction that only writes timers, said once for DT and ST. -/
theorem completes_of_exec_setDt_setSt {i : Instr} {s : State} {d e : Byte}
    (h : exec i s = complete false ((s.setDt d).setSt e)) :
    Completes i s false fun t =>
      t.dt = d ∧ t.st = e ∧ t.sp = s.sp ∧ t.waitValid = s.waitValid ∧ t.waitReg = s.waitReg ∧
      SameRegs s t ∧ t.i = s.i ∧ t.pc = s.pc ∧ SameMemory s t :=
  ⟨_, h, rfl, ⟨rfl, rfl, rfl, rfl, rfl⟩, rfl, rfl, rfl, rfl, rfl, fun _ => rfl, rfl, rfl, fun _ => rfl⟩

end Sys2Proof.Laws
end

section
/-! PROOFS. The timers (spec/45_keys_timers.md): the statement about FX07, FX15 and FX18. -/

namespace Sys2Proof.Proofs

open Sys2Proof.Machine Sys2Proof.Laws

/-- Settles O46: the encodings are those of the rows, FX07 is one `setReg` of VX, and FX15 and FX18 write one timer and
leave the other at its value. -/
theorem timerInstructionsCopyOneByte : Obligations.TimerInstructionsCopyOneByte := by
  intro s x
  have hdt : exec (.ldDtVx x) s = complete false ((s.setDt (s.reg x)).setSt s.st) := rfl
  have hst : exec (.ldStVx x) s = complete false ((s.setDt s.dt).setSt (s.reg x)) := rfl
  refine ⟨encodedAs (.ldVxDt x), encodedAs (.ldDtVx x), encodedAs (.ldStVx x), writesOnlyVx_of_exec rfl,
    completes_of_exec_setDt_setSt hdt, ?_⟩
  exact completes_mono (completes_of_exec_setDt_setSt hst) fun t ⟨hdtKept, hstSet, hframe⟩ => ⟨hstSet, hdtKept, hframe⟩

end Sys2Proof.Proofs
end

section
/-! SUPPORT. One timer under no tick and under one tick (spec/60_exceptions.md R253). -/

namespace Sys2Proof.Laws

open Sys2Proof.Machine

@[simp] theorem countDownBy_zero (t : Byte) : countDownBy 0 t = t :=
  BitVec.eq_of_toNat_eq (countDownBy_toNat 0 t)

theorem countDownBy_one (t : Byte) : countDownBy 1 t = countDown t :=
  (countDownBy_succ 0 t).trans (congrArg countDown (countDownBy_zero t))

/-- A timer at 0 stays 0: the subtraction is that of `Nat`, so there is no wrap to 255. -/
theorem countDown_toNat (t : Byte) : (countDown t).toNat = t.toNat - 1 := by
  rw [← countDownBy_one, countDownBy_toNat]

end Sys2Proof.Laws
end

section
/-! PROOFS. The timers' event (spec/60_exceptions.md): the statement about one tick. -/

namespace Sys2Proof.Proofs

open Sys2Proof.Machine Sys2Proof.Laws

/-- Settles O15: each timer is counted down on its own, and `tick` is a record update of DT and ST, so every other field
is the one before. -/
theorem tickDecrementsBothTimersToAFloorOfZero : Obligations.TickDecrementsBothTimersToAFloorOfZero := by
  intro s
  have hports : SamePorts s (tick s) := ⟨rfl, rfl, rfl, rfl, rfl⟩
  exact ⟨countDown_toNat s.dt, countDown_toNat s.st, fun _ => rfl, rfl, rfl, rfl, rfl, rfl, fun _ => rfl, hports⟩

end Sys2Proof.Proofs
end

section
/-! SUPPORT. The decoder on every word: what a word of each class that decodes is the encoding of (spec/30_encoding.md R84,
R92, R93), and which words a row of the opcode map selects (R82, R85). -/

namespace Sys2Proof.Laws

open Sys2Proof.Machine

/-! ### Bytes -/

/-- The bytes of a word are decoded as the word, with nothing left over. -/
theorem decodeBytes_bytesOfWord {w : Word} {i : Instr} :
    decodeBytes (bytesOfWord w) = .ok (i, []) ↔ decode w = .ok i := by
  rw [bytesOfWord, decodeBytes, wordOfBytes_hiByte_loByte]
  cases decode w <;> simp

/-! ### A word that decodes is the encoding of what it decodes to -/

theorem encode_of_decodeClass0 {op : Word} {i : Instr} (h : decodeClass0 op = .ok i) : encode i = op := by
  unfold decodeClass0 at h
  split at h
  · next hop => cases h; exact hop.symm
  split at h
  · next hop => cases h; exact hop.symm
  · cases h

theorem encode_of_decodeClass8 {op : Word} {i : Instr} (hC : opC op = 0x8) (h : decodeClass8 op = .ok i) :
    encode i = op := by
  unfold decodeClass8 at h
  split at h
  case h_10 => cases h
  all_goals
    next hN => cases h; exact encXY_of rfl hC hN

theorem encode_of_decodeClassE {op : Word} {i : Instr} (hC : opC op = 0xE) (h : decodeClassE op = .ok i) :
    encode i = op := by
  unfold decodeClassE at h
  iterate 2
    split at h
    · next hNN => cases h; exact encX_of rfl hC hNN
  cases h

theorem encode_of_decodeClassF {op : Word} {i : Instr} (hC : opC op = 0xF) (h : decodeClassF op = .ok i) :
    encode i = op := by
  unfold decodeClassF at h
  iterate 9
    split at h
    · next hNN => cases h; exact encX_of rfl hC hNN
  cases h

/-- Class by class: each field is read where the encoder writes it, and the row's own bits are those the decoder tests. -/
theorem encode_of_decode {op : Word} {i : Instr} (h : decode op = .ok i) : encode i = op := by
  unfold decode at h
  split at h
  case h_1 => exact encode_of_decodeClass0 h
  case h_6 hC | h_10 hC =>
    split at h
    · next hN => cases h; exact encXY_of rfl hC hN
    · cases h
  case h_9 hC => exact encode_of_decodeClass8 hC h
  case h_14 hC => cases h; exact encXYN_of rfl hC
  case h_15 hC => exact encode_of_decodeClassE hC h
  case h_16 =>
    refine encode_of_decodeClassF ?_ h
    clear h
    generalize opC op = c at *
    revert c
    decide
  case h_2 hC | h_3 hC | h_11 hC | h_12 hC => cases h; exact encNNN_of rfl hC
  case h_4 hC | h_5 hC | h_7 hC | h_8 hC | h_13 hC => cases h; exact encXNN_of rfl hC

/-! ### The words a row selects -/

/-- The row of every instruction is a row of the opcode map, and it selects the instruction's word. -/
theorem rowOf_selects_encode (i : Instr) : (rowOf i).selects (encode i) = true ∧ rowOf i ∈ opcodeRows := by
  cases i
  case cls => exact OpcodeMapRow.cls
  case ret => exact OpcodeMapRow.ret
  case jp nnn => exact OpcodeMapRow.jp nnn
  case call nnn => exact OpcodeMapRow.call nnn
  case seImm x nn => exact OpcodeMapRow.seImm x nn
  case sneImm x nn => exact OpcodeMapRow.sneImm x nn
  case seReg x y => exact OpcodeMapRow.seReg x y
  case ldImm x nn => exact OpcodeMapRow.ldImm x nn
  case addImm x nn => exact OpcodeMapRow.addImm x nn
  case ldReg x y => exact OpcodeMapRow.ldReg x y
  case orReg x y => exact OpcodeMapRow.orReg x y
  case andReg x y => exact OpcodeMapRow.andReg x y
  case xorReg x y => exact OpcodeMapRow.xorReg x y
  case addReg x y => exact OpcodeMapRow.addReg x y
  case subReg x y => exact OpcodeMapRow.subReg x y
  case shr x y => exact OpcodeMapRow.shr x y
  case subnReg x y => exact OpcodeMapRow.subnReg x y
  case shl x y => exact OpcodeMapRow.shl x y
  case sneReg x y => exact OpcodeMapRow.sneReg x y
  case ldI nnn => exact OpcodeMapRow.ldI nnn
  case jpV0 nnn => exact OpcodeMapRow.jpV0 nnn
  case rnd x nn => exact OpcodeMapRow.rnd x nn
  case drw x y n => exact OpcodeMapRow.drw x y n
  case skp x => exact OpcodeMapRow.skp x
  case sknp x => exact OpcodeMapRow.sknp x
  case ldVxDt x => exact OpcodeMapRow.ldVxDt x
  case ldVxK x => exact OpcodeMapRow.ldVxK x
  case ldDtVx x => exact OpcodeMapRow.ldDtVx x
  case ldStVx x => exact OpcodeMapRow.ldStVx x
  case addI x => exact OpcodeMapRow.addI x
  case ldF x => exact OpcodeMapRow.ldF x
  case ldB x => exact OpcodeMapRow.ldB x
  case stRegs x => exact OpcodeMapRow.stRegs x
  case ldRegs x => exact OpcodeMapRow.ldRegs x

/-- A row of one word selects that word only. -/
theorem eq_pattern_of_selects {r : OpcodeRow} {op : Word} (h : r.selects op = true) (hm : r.mask = .allOnes 16) :
    r.pattern = op := by
  rw [← eq_of_beq h, hm, BitVec.and_allOnes]

/-- Every row tests the whole class. -/
theorem opC_of_selects {i : Instr} {op : Word} (h : (rowOf i).selects op = true) : opC op = opC (rowOf i).pattern := by
  have hm : opC (rowOf i).mask = 0xF := by cases i <;> simp [rowOf, opC]
  unfold opC at hm ⊢
  rw [← eq_of_beq h, BitVec.extractLsb'_and, hm]
  exact BitVec.and_allOnes.symm

theorem opN_of_selects {p op : Word} (h : OpcodeRow.selects ⟨p, 0xF00F⟩ op = true) : opN op = opN p := by
  have hp : op &&& 0xF00F = p := eq_of_beq h
  have hm : opN 0xF00F = 0xF := rfl
  unfold opN at hm ⊢
  rw [← hp, BitVec.extractLsb'_and, hm]
  exact BitVec.and_allOnes.symm

theorem opNN_of_selects {p op : Word} (h : OpcodeRow.selects ⟨p, 0xF0FF⟩ op = true) : opNN op = opNN p := by
  have hp : op &&& 0xF0FF = p := eq_of_beq h
  have hm : opNN 0xF0FF = 0xFF := rfl
  unfold opNN at hm ⊢
  rw [← hp, BitVec.extractLsb'_and, hm]
  exact BitVec.and_allOnes.symm

/-- Format by format: a word that the row of an instruction selects is the encoding of an instruction. -/
theorem exists_encode_of_selects {i : Instr} {op : Word} (h : (rowOf i).selects op = true) : ∃ i', encode i' = op := by
  have hC := opC_of_selects h
  cases i
  case cls => exact ⟨.cls, eq_pattern_of_selects h rfl⟩
  case ret => exact ⟨.ret, eq_pattern_of_selects h rfl⟩
  case jp => exact ⟨.jp (opNNN op), encNNN_of rfl hC⟩
  case call => exact ⟨.call (opNNN op), encNNN_of rfl hC⟩
  case ldI => exact ⟨.ldI (opNNN op), encNNN_of rfl hC⟩
  case jpV0 => exact ⟨.jpV0 (opNNN op), encNNN_of rfl hC⟩
  case seImm => exact ⟨.seImm (opX op) (opNN op), encXNN_of rfl hC⟩
  case sneImm => exact ⟨.sneImm (opX op) (opNN op), encXNN_of rfl hC⟩
  case ldImm => exact ⟨.ldImm (opX op) (opNN op), encXNN_of rfl hC⟩
  case addImm => exact ⟨.addImm (opX op) (opNN op), encXNN_of rfl hC⟩
  case rnd => exact ⟨.rnd (opX op) (opNN op), encXNN_of rfl hC⟩
  case seReg => exact ⟨.seReg (opX op) (opY op), encXY_of rfl hC (opN_of_selects h)⟩
  case ldReg => exact ⟨.ldReg (opX op) (opY op), encXY_of rfl hC (opN_of_selects h)⟩
  case orReg => exact ⟨.orReg (opX op) (opY op), encXY_of rfl hC (opN_of_selects h)⟩
  case andReg => exact ⟨.andReg (opX op) (opY op), encXY_of rfl hC (opN_of_selects h)⟩
  case xorReg => exact ⟨.xorReg (opX op) (opY op), encXY_of rfl hC (opN_of_selects h)⟩
  case addReg => exact ⟨.addReg (opX op) (opY op), encXY_of rfl hC (opN_of_selects h)⟩
  case subReg => exact ⟨.subReg (opX op) (opY op), encXY_of rfl hC (opN_of_selects h)⟩
  case shr => exact ⟨.shr (opX op) (opY op), encXY_of rfl hC (opN_of_selects h)⟩
  case subnReg => exact ⟨.subnReg (opX op) (opY op), encXY_of rfl hC (opN_of_selects h)⟩
  case shl => exact ⟨.shl (opX op) (opY op), encXY_of rfl hC (opN_of_selects h)⟩
  case sneReg => exact ⟨.sneReg (opX op) (opY op), encXY_of rfl hC (opN_of_selects h)⟩
  case drw => exact ⟨.drw (opX op) (opY op) (opN op), encXYN_of rfl hC⟩
  case skp => exact ⟨.skp (opX op), encX_of rfl hC (opNN_of_selects h)⟩
  case sknp => exact ⟨.sknp (opX op), encX_of rfl hC (opNN_of_selects h)⟩
  case ldVxDt => exact ⟨.ldVxDt (opX op), encX_of rfl hC (opNN_of_selects h)⟩
  case ldVxK => exact ⟨.ldVxK (opX op), encX_of rfl hC (opNN_of_selects h)⟩
  case ldDtVx => exact ⟨.ldDtVx (opX op), encX_of rfl hC (opNN_of_selects h)⟩
  case ldStVx => exact ⟨.ldStVx (opX op), encX_of rfl hC (opNN_of_selects h)⟩
  case addI => exact ⟨.addI (opX op), encX_of rfl hC (opNN_of_selects h)⟩
  case ldF => exact ⟨.ldF (opX op), encX_of rfl hC (opNN_of_selects h)⟩
  case ldB => exact ⟨.ldB (opX op), encX_of rfl hC (opNN_of_selects h)⟩
  case stRegs => exact ⟨.stRegs (opX op), encX_of rfl hC (opNN_of_selects h)⟩
  case ldRegs => exact ⟨.ldRegs (opX op), encX_of rfl hC (opNN_of_selects h)⟩

theorem rowOf_selects_of_decode {op : Word} {i : Instr} (h : decode op = .ok i) : (rowOf i).selects op = true :=
  encode_of_decode h ▸ (rowOf_selects_encode i).1

/-- The decoder's only error is the unknown word, and a word that it reads is selected by a row. -/
theorem decode_of_not_wellFormedWord {op : Word} (h : wellFormedWord op = false) : decode op = .error (.unknown op) := by
  cases hd : decode op with
  | ok i => exact absurd (rowOf_selects_of_decode hd) (List.any_eq_false.mp h _ (rowOf_selects_encode i).2)
  | error e => rw [decode_error hd]

/-- Two rows whose match values differ in a bit that both masks keep select no word in common. -/
theorem not_selects_both {r r' : OpcodeRow} (h : r.pattern &&& r'.mask ≠ r'.pattern &&& r.mask) (op : Word) :
    ¬ (r.selects op = true ∧ r'.selects op = true) := by
  rintro ⟨hr, hr'⟩
  apply h
  rw [← eq_of_beq hr, ← eq_of_beq hr', BitVec.and_assoc, BitVec.and_assoc, BitVec.and_comm r.mask]

end Sys2Proof.Laws
end

section
/-! PROOFS. Encoding and decoding (spec/30_encoding.md): the decoder against the encoder and the opcode map. -/

namespace Sys2Proof.Proofs

open Sys2Proof.Machine Sys2Proof.Laws

/-- Settles O1: the word is read back, and so are its two bytes. -/
theorem decodeOfEncodeIsTheInstruction : Obligations.DecodeOfEncodeIsTheInstruction := by
  intro i
  exact ⟨decode_encode i, decodeBytes_bytesOfWord.mpr (decode_encode i)⟩

/-- Settles O2, class by class of the decoder. -/
theorem encodeOfDecodeIsTheWord : Obligations.EncodeOfDecodeIsTheWord := by
  intro op i h
  exact encode_of_decode h

/-- Settles O3: words that decode and words that a row selects are both the encodings of instructions. -/
theorem decoderAcceptsExactlyTheOpcodeMap : Obligations.DecoderAcceptsExactlyTheOpcodeMap := by
  intro op
  refine ⟨fun _ => rowOf_selects_of_decode, fun h => ?_, decode_of_not_wellFormedWord⟩
  obtain ⟨r, hr, hsel⟩ := List.any_eq_true.mp h
  obtain ⟨i, -, rfl⟩ := List.mem_map.mp hr
  obtain ⟨i', rfl⟩ := exists_encode_of_selects hsel
  exact ⟨i', decode_encode i'⟩

/-- Settles O4: any two rows differ in a bit of the opcode that both test. -/
theorem opcodeRowsSelectDisjointWords : Obligations.OpcodeRowsSelectDisjointWords := by
  have hdiffer : opcodeRows.Pairwise fun r r' => r.pattern &&& r'.mask ≠ r'.pattern &&& r.mask := by decide
  exact ⟨rfl, hdiffer.imp not_selects_both⟩

/-- Settles O5: the decoder evaluated on twelve words. -/
theorem writtenOutWordsDecode : Obligations.WrittenOutWordsDecode := by
  unfold Obligations.WrittenOutWordsDecode
  decide

end Sys2Proof.Proofs
end

section
/-! SUPPORT. What any instruction can do, said once: every answer of `exec`, and of each part of the state how an instruction
may change it (spec/10_state.md R20 to R32). The whole-machine statements are read off from it. -/

namespace Sys2Proof.Laws

open Sys2Proof.Machine

/-! ### The effect of an instruction -/

/-- What an instruction may have done to the state `s` where it leaves `u`, part by part: by the spec's tables of who writes
what. -/
structure Effect (i : Instr) (s u : State) : Prop where
  regs  : ∀ j, ¬ writesReg i j → u.reg j = s.reg j := by exact fun _ _ => rfl
  flag  : setsFlag i → u.reg vf = 0 ∨ u.reg vf = 1 := by exact False.elim
  index : u.i = s.i ∨ (∃ nnn, i = .ldI nnn) ∨ (∃ x, i = .addI x) ∨ ∃ x, i = .ldF x := by exact .inl rfl
  pc    : u.pc = s.pc ∨ i = .ret ∨ (∃ nnn, i = .jp nnn ∨ i = .call nnn ∨ i = .jpV0 nnn) ∨
    (u.pc = s.pc + 2 ∧ ∃ x y nn, i = .seImm x nn ∨ i = .sneImm x nn ∨ i = .seReg x y ∨ i = .sneReg x y ∨ i = .skp x ∨
      i = .sknp x) := by exact .inl rfl
  dt    : u.dt = s.dt ∨ ∃ x, i = .ldDtVx x := by exact .inl rfl
  st    : u.st = s.st ∨ ∃ x, i = .ldStVx x := by exact .inl rfl
  sp    : u.sp = s.sp ∨ (i = .ret ∧ s.sp ≠ stackBase ∧ u.sp = s.sp - 2) ∨
    ∃ nnn, i = .call nnn ∧ s.sp ≠ stackLimit ∧ u.sp = s.sp + 2 := by exact .inl rfl
  wait  : (u.waitValid = s.waitValid ∧ u.waitReg = s.waitReg) ∨
    ∃ x, i = .ldVxK x ∧ u.waitReg = x ∧ u.pc = s.pc ∧ u.mem = s.mem := by exact .inl ⟨rfl, rfl⟩
  mem   : u.mem = s.mem ∨ writesMemory i := by exact .inl rfl
  wf    : Memory.wf s.mem = true → Memory.wf u.mem = true := by exact id
  ports : SamePorts s u := by exact ⟨rfl, rfl, rfl, rfl, rfl⟩

/-- Every way an instruction ends: it completes, or it raises an error, one the spec gives it where SP is legal. -/
inductive Ends (i : Instr) (s : State) : Answer → Prop
  | completes {drew : Bool} {u : State} (effect : Effect i s u) : Ends i s (complete drew u)
  | raises {e : Fault} {u : State} (effect : Effect i s u) (may : spLegal s → mayRaise i e) : Ends i s (raise e u)

/-- What a step returns is no part of the effect. -/
theorem Effect.setResult {i : Instr} {s u : State} (h : Effect i s u) (r : StepResult) : Effect i s (u.setResult r) :=
  ⟨h.regs, h.flag, h.index, h.pc, h.dt, h.st, h.sp, h.wait, h.mem, h.wf, h.ports⟩

/-! ### Raising an error -/

/-- Raising an error answers a next state, unless the driver halts. -/
theorem raise_goes_on (e : Fault) (u : State) :
    (∃ t, raise e u = .next t) ∨ (u.cfg.policy = .halt ∧ ∃ e', raise e u = .fault e') := by
  cases hpolicy : u.cfg.policy with
  | halt => exact .inr ⟨rfl, e, (raise_spec e u).1 hpolicy⟩
  | logAndSkip => exact .inl ⟨_, (raise_spec e u).2 hpolicy⟩

/-- Raising an error raises that error. -/
theorem raise_error {e e' : Fault} {u : State}
    (h : raise e u = .fault e' ∨ ∃ t, raise e u = .next t ∧ t.result = .error e') : e = e' := by
  obtain h | ⟨t, ht, hr⟩ := h
  · unfold raise at h
    split at h <;> cases h
    rfl
  · rw [raise_eq_next ht] at hr
    cases hr
    rfl

/-! ### Kinds of instructions -/

theorem setFlag_reg_vf (s : State) (c : Bool) : (s.setFlag c).reg vf = flagByte c := by
  rw [setFlag_reg, if_pos rfl]

theorem setFlag_reg_of_ne (s : State) (c : Bool) {j : RegIdx} (hj : j ≠ vf) : (s.setFlag c).reg j = s.reg j := by
  rw [setFlag_reg, if_neg hj]

theorem flagByte_zero_or_one (c : Bool) : flagByte c = 0 ∨ flagByte c = 1 := by
  cases c
  · exact .inl rfl
  · exact .inr rfl

/-- An instruction that writes one general register and no flag. -/
theorem Effect.of_setReg {i : Instr} {s : State} {x : RegIdx} {b : Byte} (hx : writesReg i x) (hf : ¬ setsFlag i) :
    Effect i s (s.setReg x b) where
  regs j hj := by
    rw [setReg_reg, if_neg]
    rintro rfl
    exact hj hx
  flag h := absurd h hf

/-- An instruction that writes a result and its flag. -/
theorem Effect.of_writeResultThenFlag {i : Instr} {s : State} {x : RegIdx} {b : Byte} {c : Bool}
    (hx : ∀ j, j = x ∨ j = vf → writesReg i j) : Effect i s (writeResultThenFlag x b c s) where
  regs j hj := by
    have hne : ¬ (j = x ∨ j = vf) := mt (hx j) hj
    rw [writeResultThenFlag, setFlag_reg_of_ne _ c fun h => hne (.inr h), setReg_reg, if_neg fun h => hne (.inl h)]
  flag _ := by
    rw [writeResultThenFlag, setFlag_reg_vf]
    exact flagByte_zero_or_one c

/-- A skip instruction. -/
theorem Effect.of_skipIf {i : Instr} {s : State} {c : Bool} (hf : ¬ setsFlag i)
    (hi : ∃ x y nn, i = .seImm x nn ∨ i = .sneImm x nn ∨ i = .seReg x y ∨ i = .sneReg x y ∨ i = .skp x ∨ i = .sknp x) :
    Effect i s (skipIf c s) := by
  rw [skipIf_eq]
  refine { flag := fun h => absurd h hf, pc := ?_ }
  cases c
  · exact .inl rfl
  · exact .inr (.inr (.inr ⟨rfl, hi⟩))

/-- An instruction that stores to memory and sets no flag. -/
theorem Effect.of_setMem {i : Instr} {s : State} {m : Memory} (hf : ¬ setsFlag i) (hm : writesMemory i)
    (hwf : Memory.wf s.mem = true → Memory.wf m = true) : Effect i s (s.setMem m) :=
  { flag := fun h => absurd h hf, mem := .inr hm, wf := hwf }

/-- An instruction that stores bytes, FX33 or FX55 (R183, R184). -/
theorem ends_storeBytes {i : Instr} {s : State} {bs : List Byte} (hf : ¬ setsFlag i) (hm : writesMemory i)
    (he : ∀ a, 0x1000 ≤ a → a ≤ 0xFFFF → mayRaise i (.outOfBounds a)) :
    Ends i s (finish false (storeBytes (indexBase s) bs s)) := by
  have heffect : ∀ bs' : List Byte, bs' = [] ∨ indexBase s + bs'.length ≤ 0x1000 →
      Effect i s (s.setMem (Memory.writeAll s.mem (indexBase s) bs')) := by
    intro bs' hfit
    refine .of_setMem hf hm fun hw => ?_
    rcases hfit with rfl | hfit
    · exact hw
    · exact wf_writeAll bs' hw hfit
  rw [storeBytes_spec]
  split
  case isTrue hfit => exact .completes (heffect bs hfit)
  case isFalse hfit =>
    refine .raises (heffect _ ?_) fun _ => he _ (by omega) (by have := s.i.isLt; rw [indexBase]; omega)
    by_cases ha : indexBase s ≤ 0x1000
    · right
      rw [List.length_take]
      omega
    · left
      rw [show 0x1000 - indexBase s = 0 by omega, List.take_zero]

/-- FX65 (R185). -/
theorem ends_ldRegs (x : RegIdx) (s : State) : Ends (.ldRegs x) s (execLdRegs x s) := by
  have heffect : ∀ js : List RegIdx, (∀ j ∈ js, j ≤ x) → Effect (.ldRegs x) s (loadAll s.mem (indexBase s) js s) := by
    intro js hjs
    have hregs : ∀ j, ¬ j ≤ x → (loadAll s.mem (indexBase s) js s).reg j = s.reg j := fun j hj =>
      loadAll_reg_of_not_mem s.mem js (indexBase s) s (mt (hjs j) hj)
    rw [loadAll_frame] at hregs ⊢
    exact { regs := hregs }
  unfold execLdRegs
  rw [loadBytes_spec]
  split
  case isTrue => exact .completes (heffect _ fun j hj => mem_regsUpTo.mp hj)
  case isFalse =>
    refine .raises (heffect _ fun j hj => mem_regsUpTo.mp (List.mem_of_mem_take hj)) fun _ => ⟨_, ?_, ?_, rfl⟩
    · omega
    · have := s.i.isLt
      rw [indexBase]
      omega

/-- Drawing after VF is cleared (R201). -/
theorem Effect.of_drawFrame {x y : RegIdx} {n : Nibble} {s u : State} (h : DrawFrame (s.setFlag false) u) :
    Effect (.drw x y n) s u := by
  obtain ⟨hi, hpc, ⟨⟨hdt, hst, hvalid, hreg⟩, hsp⟩, hports, -⟩ := h.fields
  refine { regs := fun j hj => ?_, flag := fun _ => ?_, index := .inl hi, pc := .inl hpc, dt := .inl hdt, st := .inl hst,
           sp := .inl hsp, wait := .inl ⟨hvalid, hreg⟩, mem := .inr trivial, wf := h.wf, ports := hports }
  · rw [h.regs j hj, setFlag_reg_of_ne s false hj]
  · refine h.flag.imp_left fun hkept => ?_
    rw [hkept, setFlag_reg_vf]
    rfl

/-- DXYN (R201). -/
theorem ends_drw (x y : RegIdx) (n : Nibble) (s : State) : Ends (.drw x y n) s (execDrw x y n s) := by
  unfold execDrw
  rcases drawRows_spec n.toNat (indexBase s) (s.reg x).toNat (s.reg y).toNat (s.setFlag false) with
    ⟨-, u, hu, hframe⟩ | ⟨-, u, hu, hframe⟩
  · rw [hu]
    exact .completes (.of_drawFrame hframe)
  · rw [hu]
    refine .raises (.of_drawFrame hframe) fun _ => ⟨_, ?_, ?_, rfl⟩
    · omega
    · have := s.i.isLt
      rw [indexBase]
      omega

/-- The two bytes below a legal SP are in memory. -/
theorem pop_address_le {s : State} (h : spLegal s) : (s.sp - 2).toNat + 1 ≤ 0xFFF := by
  obtain ⟨hlo, hhi, -⟩ := h
  bv_omega

/-- The two bytes from a legal SP on are in memory. -/
theorem push_address_le {s : State} (h : spLegal s) : s.sp.toNat + 1 ≤ 0xFFF := by
  obtain ⟨-, hhi, -⟩ := h
  omega

/-- 00EE (R131, R132). -/
theorem ends_ret (s : State) : Ends .ret s (execRet s) := by
  unfold execRet pop
  split
  case isTrue => exact .raises {} fun _ => rfl
  case isFalse hne =>
    dsimp only
    rw [memReadWord_spec]
    have hsp : ∀ pc, Effect .ret s ((s.setSp (s.sp - 2)).setPc pc) := fun pc =>
      { pc := .inr (.inl rfl), sp := .inr (.inl ⟨rfl, hne, rfl⟩) }
    split
    case isTrue => exact .completes (hsp _)
    case isFalse hout => exact .raises (hsp s.pc) fun hlegal => absurd (pop_address_le hlegal) hout

/-- 2NNN (R130, R134). -/
theorem ends_call (nnn : Addr12) (s : State) : Ends (.call nnn) s (execCall nnn s) := by
  unfold execCall push
  split
  case isTrue => exact .raises {} fun _ => rfl
  case isFalse hne =>
    rcases memWriteWord_cases s.sp.toNat s.pc s with ⟨m, hm, hwf⟩ | ⟨e, m, hm, hwf, hout⟩
    · rw [hm]
      exact .completes { pc := .inr (.inr (.inl ⟨nnn, .inr (.inl rfl)⟩)), sp := .inr (.inr ⟨nnn, rfl, hne, rfl⟩),
                         mem := .inr trivial, wf := hwf }
    · rw [hm]
      exact .raises { mem := .inr trivial, wf := hwf } fun hlegal => absurd (push_address_le hlegal) (by omega)

/-- FX0A (R223). -/
theorem ends_ldVxK (x : RegIdx) (s : State) : Ends (.ldVxK x) s (execLdVxK x s) := by
  unfold execLdVxK
  refine .completes ?_
  split
  · exact .of_setReg rfl id
  · exact { wait := .inr ⟨x, rfl, rfl, rfl, rfl⟩ }

/-! ### Every instruction -/

/-- Every answer of every instruction (R115). -/
theorem exec_ends (i : Instr) (s : State) : Ends i s (exec i s) := by
  cases i
  case cls => exact .completes (.of_setMem id trivial wf_clearFramebuffer)
  case ret => exact ends_ret s
  case jp nnn => exact .completes { pc := .inr (.inr (.inl ⟨nnn, .inl rfl⟩)) }
  case call nnn => exact ends_call nnn s
  case jpV0 nnn => exact .completes { pc := .inr (.inr (.inl ⟨nnn, .inr (.inr rfl)⟩)) }
  case seImm x nn => exact .completes (.of_skipIf id ⟨x, x, nn, .inl rfl⟩)
  case sneImm x nn => exact .completes (.of_skipIf id ⟨x, x, nn, .inr (.inl rfl)⟩)
  case seReg x y => exact .completes (.of_skipIf id ⟨x, y, 0, .inr (.inr (.inl rfl))⟩)
  case sneReg x y => exact .completes (.of_skipIf id ⟨x, y, 0, .inr (.inr (.inr (.inl rfl)))⟩)
  case skp x => exact .completes (.of_skipIf id ⟨x, x, 0, .inr (.inr (.inr (.inr (.inl rfl))))⟩)
  case sknp x => exact .completes (.of_skipIf id ⟨x, x, 0, .inr (.inr (.inr (.inr (.inr rfl))))⟩)
  case ldImm | addImm | ldReg | orReg | andReg | xorReg | rnd | ldVxDt => exact .completes (.of_setReg rfl id)
  case addReg | subReg | shr | subnReg | shl => exact .completes (.of_writeResultThenFlag fun _ => id)
  case ldI nnn => exact .completes { index := .inr (.inl ⟨nnn, rfl⟩) }
  case ldF x => exact .completes { index := .inr (.inr (.inr ⟨x, rfl⟩)) }
  case addI x =>
    refine .completes { regs := fun j hj => ?_, flag := fun _ => ?_, index := .inr (.inr (.inl ⟨x, rfl⟩)) }
    · rw [setFlag_reg_of_ne _ _ hj, setI_reg]
    · rw [setFlag_reg_vf]
      exact flagByte_zero_or_one _
  case ldDtVx x => exact .completes { dt := .inr ⟨x, rfl⟩ }
  case ldStVx x => exact .completes { st := .inr ⟨x, rfl⟩ }
  case ldVxK x => exact ends_ldVxK x s
  case drw x y n => exact ends_drw x y n s
  case ldB | stRegs => exact ends_storeBytes id trivial fun a hlo hhi => ⟨a, hlo, hhi, rfl⟩
  case ldRegs x => exact ends_ldRegs x s

/-- The next state of every instruction, an error's state included. -/
theorem exec_effect {i : Instr} {s t : State} (h : exec i s = .next t) : Effect i s t := by
  have hends := exec_ends i s
  generalize exec i s = answer at h hends
  cases hends with
  | completes heffect =>
    cases h
    exact heffect.setResult _
  | raises heffect _ =>
    rw [raise_eq_next h]
    exact heffect.setResult _

/-- An instruction answers a next state, unless it raises an error and the driver halts. -/
theorem exec_goes_on (i : Instr) (s : State) :
    (∃ t, exec i s = .next t) ∨ (s.cfg.policy = .halt ∧ ∃ e, exec i s = .fault e) := by
  have hends := exec_ends i s
  generalize exec i s = answer at hends ⊢
  cases hends with
  | completes _ => exact .inl ⟨_, rfl⟩
  | raises heffect _ =>
    obtain ⟨-, -, -, -, hcfg⟩ := heffect.ports
    rw [← hcfg]
    exact raise_goes_on _ _

/-- The error an instruction raises, as a fault or in the next state. -/
theorem exec_error {i : Instr} {s : State} {e : Fault} (hlegal : spLegal s)
    (h : exec i s = .fault e ∨ ∃ t, exec i s = .next t ∧ t.result = .error e) : mayRaise i e := by
  have hends := exec_ends i s
  generalize exec i s = answer at h hends
  cases hends with
  | completes _ =>
    obtain h | ⟨t, ht, hr⟩ := h
    · cases h
    · cases ht
      cases hr
  | raises _ hmay =>
    rw [← raise_error h]
    exact hmay hlegal

/-! ### The invariant -/

/-- The invariant after an instruction that ran with PC advanced past its two bytes and no key awaited before it. -/
theorem inv_of_effect {i : Instr} {s t : State} (hinv : Inv s) (hwait : s.waitValid = false) (hpc : s.pc.toNat + 1 ≤ 0xFFF)
    (hdecode : decode (wordAt s.mem s.pc.toNat) = .ok i) (h : Effect i (advance (deliver s)) t) : Inv t where
  memory := h.wf hinv.memory
  stack := by
    obtain ⟨hlo, hhi, heven⟩ := hinv.stack
    rcases h.sp with hsp | ⟨-, hne, hsp⟩ | ⟨nnn, -, hne, hsp⟩
    · rw [spLegal, hsp]
      exact hinv.stack
    · have hne : s.sp ≠ 0xEA0 := hne
      have hsp : t.sp = s.sp - 2 := hsp
      refine ⟨?_, ?_, ?_⟩ <;> rw [hsp] <;> bv_omega
    · have hne : s.sp ≠ 0xEC0 := hne
      have hsp : t.sp = s.sp + 2 := hsp
      refine ⟨?_, ?_, ?_⟩ <;> rw [hsp] <;> bv_omega
  wait := by
    intro hvalid
    rcases h.wait with ⟨hkept, -⟩ | ⟨x, rfl, hreg, hpcKept, hmem⟩
    · rw [hvalid] at hkept
      exact absurd (hkept.trans hwait) (by decide)
    · have hnext : t.pc.toNat = s.pc.toNat + 2 := by
        rw [hpcKept]
        change (s.pc + 2).toNat = _
        bv_omega
      rw [hreg, hmem, hnext, Nat.add_sub_cancel]
      exact ⟨by omega, by omega, hdecode⟩

/-- A wait step leaves the wait as it is, or ends it (R116). -/
theorem inv_of_waitStep {s t : State} (hinv : Inv s) (h : waitStep s = .next t) : Inv t := by
  rcases waitStep_next h with ⟨-, rfl⟩ | ⟨k, -, rfl⟩
  · exact ⟨hinv.memory, hinv.stack, hinv.wait⟩
  · exact ⟨hinv.memory, hinv.stack, nofun⟩

/-- The delivery of the driver's input changes no part of the state that the invariant is about. -/
theorem inv_deliver {s : State} (hinv : Inv s) : Inv (deliver s) := ⟨hinv.memory, hinv.stack, hinv.wait⟩

end Sys2Proof.Laws
end

section
/-! PROOFS. What every step and every instruction keeps (spec/10_state.md R20 to R32, spec/40_step_cycle.md R121,
spec/60_exceptions.md R249). -/

namespace Sys2Proof.Proofs

open Sys2Proof.Machine Sys2Proof.Laws

/-- Settles O51, along the ways a step goes: a wait step, an error before an instruction, an instruction. -/
theorem everyStepKeepsTheInvariant : Obligations.EveryStepKeepsTheInvariant := by
  intro s t hinv hstep
  rcases step_cases s with ⟨-, h⟩ | ⟨-, -, h⟩ | ⟨hwait, -, -, h⟩ | ⟨hwait, hpc, i, hdecode, h⟩ <;> rw [h] at hstep
  · exact inv_of_waitStep (inv_deliver hinv) hstep
  · rw [raise_eq_next hstep]
    exact ⟨hinv.memory, hinv.stack, hinv.wait⟩
  · rw [raise_eq_next hstep]
    exact ⟨hinv.memory, hinv.stack, fun hvalid => absurd (hvalid.symm.trans hwait) (by decide)⟩
  · exact inv_of_effect hinv hwait hpc hdecode (exec_effect hstep)

/-- Settles O13, along the ways a step goes. -/
theorem stepAlwaysGoesOn : Obligations.StepAlwaysGoesOn := by
  intro s
  rcases step_cases s with ⟨-, h⟩ | ⟨-, -, h⟩ | ⟨-, -, -, h⟩ | ⟨-, -, i, -, h⟩ <;> rw [h]
  · exact .inl ⟨_, rfl⟩
  · exact raise_goes_on _ _
  · exact raise_goes_on _ _
  · exact exec_goes_on i _

/-- Settles O53, read off the effect of an instruction on the general registers. -/
theorem registersChangeOnlyAsTabled : Obligations.RegistersChangeOnlyAsTabled := by
  intro i s t j h hj
  exact (exec_effect h).regs j hj

/-- Settles O54, read off the effect of an instruction on VF: an error's state has the cleared or set flag too. -/
theorem flagInstructionsAlwaysOverwriteVf : Obligations.FlagInstructionsAlwaysOverwriteVf := by
  intro i s t hi h
  exact (exec_effect h).flag hi

/-- Settles O55: a register that changed did not stay, so its instruction is one of its writers. -/
theorem specialRegistersChangeOnlyByTheirWriters : Obligations.SpecialRegistersChangeOnlyByTheirWriters := by
  intro i s t h
  have heffect := exec_effect h
  refine ⟨heffect.index.resolve_left, heffect.dt.resolve_left, heffect.st.resolve_left, fun hne => ?_, fun hne => ?_⟩
  · rcases heffect.sp.resolve_left hne with ⟨hret, -⟩ | ⟨nnn, hcall, -⟩
    · exact .inl hret
    · exact .inr ⟨nnn, hcall⟩
  · rcases heffect.wait with ⟨hvalid, hreg⟩ | ⟨x, hx, -⟩
    · exact absurd hne (by simp [hvalid, hreg])
    · exact ⟨x, hx⟩

/-- Settles O56, read off the effect of an instruction on memory and on the ports. -/
theorem memoryChangesOnlyByStoringInstructions : Obligations.MemoryChangesOnlyByStoringInstructions := by
  intro i s t h
  have heffect := exec_effect h
  refine ⟨fun hi a => ?_, heffect.ports⟩
  rw [heffect.mem.resolve_right hi]

/-- Settles O57, read off the effect of an instruction on PC. -/
theorem pcChangesOnlyByControlTransfer : Obligations.PcChangesOnlyByControlTransfer := by
  intro i s t h hne
  exact (exec_effect h).pc.resolve_left hne

/-- Settles O60: each instruction's errors are those it ends with. -/
theorem instructionsRaiseOnlyTheirOwnErrors : Obligations.InstructionsRaiseOnlyTheirOwnErrors := by
  intro i s e hlegal h
  exact exec_error hlegal h

/-- Settles O52: a tick changes the timers only. -/
theorem tickKeepsTheInvariant : Obligations.TickKeepsTheInvariant := by
  intro s hinv
  exact ⟨hinv.memory, hinv.stack, hinv.wait⟩

end Sys2Proof.Proofs
end

section
/-! SUPPORT. The ports of a step, the key snapshot, the random byte and the result of the step before it
(spec/10_state.md R29, spec/40_step_cycle.md R117), and what does not look at them. -/

namespace Sys2Proof.Laws

open Sys2Proof.Machine

/-- The state with another key snapshot, another random byte and another result. -/
def withPorts (k : BitVec 16) (r : Byte) (q : StepResult) (s : State) : State := { s with keys := k, rnd := r, result := q }

/-- The state with another key snapshot and another random byte. -/
def withInputs (k : BitVec 16) (r : Byte) (s : State) : State := { s with keys := k, rnd := r }

/-- The same progress from another state. -/
def mapState {α : Type} (f : State → State) : Progress α → Progress α
  | .done a s   => .done a (f s)
  | .failed e s => .failed e (f s)

/-- Sub-steps that do the same whatever the ports hold, and leave the ports as they are. -/
def Blind {α : Type} (op : State → Progress α) : Prop :=
  ∀ k r q s, op (withPorts k r q s) = mapState (withPorts k r q) (op s)

/-- A change of the state that neither looks at the ports nor changes them. -/
def BlindUpdate (f : State → State) : Prop := ∀ k r q s, f (withPorts k r q s) = withPorts k r q (f s)

/-! ### Sub-steps -/

theorem Blind.andThen {α β : Type} {op : State → Progress α} {next : α → State → Progress β} (hop : Blind op)
    (hnext : ∀ a, Blind (next a)) : Blind fun s => (op s).andThen next := by
  intro k r q s
  dsimp only
  rw [hop]
  cases op s with
  | done a u => exact hnext a k r q u
  | failed e u => rfl

theorem Blind.after {α : Type} {op : State → Progress α} {f : State → State} (hop : Blind op) (hf : BlindUpdate f) :
    Blind fun s => op (f s) := by
  intro k r q s
  dsimp only
  rw [hf, hop]

theorem blind_done {α : Type} (a : α) {f : State → State} (hf : BlindUpdate f) : Blind fun s => .done a (f s) := by
  intro k r q s
  dsimp only
  rw [hf]
  rfl

theorem blind_memRead (a : Nat) : Blind (memRead a) := by
  intro k r q s
  by_cases ha : a ≤ 0xFFF
  · rw [memRead_inside ha, memRead_inside ha]
    rfl
  · rw [memRead_outside (by omega), memRead_outside (by omega)]
    rfl

theorem blind_memWrite (a : Nat) (b : Byte) : Blind (memWrite a b) := by
  intro k r q s
  by_cases ha : a ≤ 0xFFF
  · rw [memWrite_inside ha, memWrite_inside ha]
    rfl
  · rw [memWrite_outside (by omega), memWrite_outside (by omega)]
    rfl

theorem blind_memReadWord (a : Nat) : Blind (memReadWord a) :=
  (blind_memRead a).andThen fun _ => (blind_memRead (a + 1)).andThen fun _ => blind_done _ fun _ _ _ _ => rfl

theorem blind_memWriteWord (a : Nat) (w : Word) : Blind (memWriteWord a w) :=
  (blind_memWrite a (hiByte w)).andThen fun _ => blind_memWrite (a + 1) (loByte w)

theorem blind_storeBytes (bs : List Byte) (a : Nat) : Blind (storeBytes a bs) := by
  induction bs generalizing a with
  | nil => exact blind_done () fun _ _ _ _ => rfl
  | cons b bs ih => exact (blind_memWrite a b).andThen fun _ => ih (a + 1)

theorem blind_loadBytes (js : List RegIdx) (a : Nat) : Blind (loadBytes a js) := by
  induction js generalizing a with
  | nil => exact blind_done () fun _ _ _ _ => rfl
  | cons j js ih =>
    exact (blind_memRead a).andThen fun b => (ih (a + 1)).after (f := fun s => s.setReg j b) fun _ _ _ _ => rfl

theorem blind_push (w : Word) : Blind (push w) := by
  intro k r q s
  by_cases hfull : s.sp = stackLimit
  · rw [push_full (s := withPorts k r q s) hfull, push_full hfull]
    rfl
  · have hpush : ∀ u : State, u.sp = s.sp → push w u =
        (memWriteWord s.sp.toNat w u).andThen fun _ t => .done () (t.setSp (t.sp + 2)) := by
      intro u hu
      rw [push, if_neg (hu ▸ hfull), hu]
    rw [hpush (withPorts k r q s) rfl, hpush s rfl]
    exact (blind_memWriteWord s.sp.toNat w).andThen
      (fun _ => blind_done () (f := fun t => t.setSp (t.sp + 2)) fun _ _ _ _ => rfl) k r q s

theorem blind_pop : Blind pop := by
  intro k r q s
  by_cases hempty : s.sp = stackBase
  · rw [pop_empty (s := withPorts k r q s) hempty, pop_empty hempty]
    rfl
  · have hpop : ∀ u : State, u.sp = s.sp → pop u = memReadWord (s.sp - 2).toNat (u.setSp (s.sp - 2)) := by
      intro u hu
      rw [pop, if_neg (hu ▸ hempty), hu]
      rfl
    rw [hpop (withPorts k r q s) rfl, hpop s rfl]
    exact blind_memReadWord (s.sp - 2).toNat k r q (s.setSp (s.sp - 2))

theorem blindUpdate_drawPixel (px py : Nat) : BlindUpdate (drawPixel px py) := by
  intro k r q s
  unfold drawPixel
  change (match resolvePixel s.cfg.edge px py with | none => _ | some (x, y) => _) = _
  cases resolvePixel s.cfg.edge px py with
  | none => rfl
  | some p =>
    obtain ⟨x, y⟩ := p
    dsimp only
    change (if getPixel s.mem x y then _ else _) = _
    split <;> rfl

theorem blindUpdate_drawRow (x0 py : Nat) (b : Byte) : BlindUpdate (drawRow x0 py b) := by
  intro k r q s
  refine List.foldl_hom (withPorts k r q) fun u bit => ?_
  split
  · exact blindUpdate_drawPixel (x0 + bit) py k r q u
  · rfl

theorem blind_drawRows (n a x0 py : Nat) : Blind (drawRows a x0 py n) := by
  induction n generalizing a py with
  | zero => exact blind_done () fun _ _ _ _ => rfl
  | succ n ih => exact (blind_memRead a).andThen fun b => (ih (a + 1) (py + 1)).after (blindUpdate_drawRow x0 py b)

/-! ### Instructions -/

/-- The end of an instruction puts its own result where the result of the step before was. -/
theorem finish_mapState (drew : Bool) (k : BitVec 16) (r : Byte) (q : StepResult) (p : Progress Unit) :
    finish drew (mapState (withPorts k r q) p) = mapNext (withInputs k r) (finish drew p) := by
  cases p with
  | done _ s => rfl
  | failed e s =>
    change raise e (withPorts k r q s) = mapNext (withInputs k r) (raise e s)
    unfold raise
    change (match s.cfg.policy with | .logAndSkip => _ | .halt => _) = _
    cases s.cfg.policy <;> rfl

theorem finish_blind {op : State → Progress Unit} (hop : Blind op) (drew : Bool) (k : BitVec 16) (r : Byte)
    (q : StepResult) (s : State) :
    finish drew (op (withPorts k r q s)) = mapNext (withInputs k r) (finish drew (op s)) := by
  rw [hop, finish_mapState]

/-- A skip whose condition is the same whatever the ports hold. -/
theorem complete_skipIf_withPorts (c : Bool) (k : BitVec 16) (r : Byte) (q : StepResult) (s : State) :
    complete false (skipIf c (withPorts k r q s)) = mapNext (withInputs k r) (complete false (skipIf c s)) := by
  cases c <;> rfl

/-- A store of a memory that is the same whatever the ports hold. -/
theorem complete_setMem_withPorts (drew : Bool) (m : Memory) (k : BitVec 16) (r : Byte) (q : StepResult) (s : State) :
    complete drew ((withPorts k r q s).setMem m) = mapNext (withInputs k r) (complete drew (s.setMem m)) := rfl

/-- An instruction does the same whatever the ports it does not read hold: the result of the step before it, the key snapshot
but for EX9E, EXA1 and FX0A, the random byte but for CXNN. -/
theorem exec_withPorts (i : Instr) (s : State) (k : BitVec 16) (r : Byte) (q : StepResult)
    (hk : readsKeys i → k = s.keys) (hr : (∃ x nn, i = .rnd x nn) → r = s.rnd) :
    exec i (withPorts k r q s) = mapNext (withInputs k r) (exec i s) := by
  cases i
  case cls => exact complete_setMem_withPorts true (clearFramebuffer s.mem) k r q s
  case ret => exact finish_blind (blind_pop.andThen fun w => blind_done () (f := fun s => s.setPc w) fun _ _ _ _ => rfl) ..
  case call nnn =>
    exact finish_blind ((blind_push s.pc).andThen fun _ =>
      blind_done () (f := fun s => s.setPc (zextAddr nnn)) fun _ _ _ _ => rfl) ..
  case seImm | sneImm | seReg | sneReg => exact complete_skipIf_withPorts ..
  case skp | sknp =>
    obtain rfl := hk trivial
    exact complete_skipIf_withPorts ..
  case ldVxK x =>
    obtain rfl := hk trivial
    change complete false (match firstKey s.keys with | some _ => _ | none => _) = mapNext _ (complete false _)
    cases firstKey s.keys <;> rfl
  case rnd x nn =>
    obtain rfl := hr ⟨x, nn, rfl⟩
    rfl
  case drw x y n =>
    exact finish_blind ((blind_drawRows n.toNat (indexBase s) (s.reg x).toNat (s.reg y).toNat).after
      (f := fun s => s.setFlag false) fun _ _ _ _ => rfl) ..
  case ldB x => exact finish_blind (blind_storeBytes (decimalDigits (s.reg x)) (indexBase s)) ..
  case stRegs x => exact finish_blind (blind_storeBytes ((regsUpTo x).map s.reg) (indexBase s)) ..
  case ldRegs x => exact finish_blind (blind_loadBytes (regsUpTo x) (indexBase s)) ..
  all_goals rfl

theorem mapNext_congr {f g : State → State} {answer : Answer} (h : ∀ t, answer = .next t → f t = g t) :
    mapNext f answer = mapNext g answer := by
  cases answer with
  | next t => exact congrArg _ (h t rfl)
  | fault e => rfl
  | refused r => rfl

theorem mapNext_id (answer : Answer) : mapNext id answer = answer := by
  cases answer <;> rfl

/-! ### The step -/

theorem step_of_waiting {s : State} (hwait : s.waitValid = true) : step s = waitStep (deliver s) := by
  rcases step_cases s with ⟨-, h⟩ | ⟨hnot, -⟩ | ⟨hnot, -⟩ | ⟨hnot, -⟩
  · exact h
  all_goals exact absurd (hwait.symm.trans hnot) (by decide)

theorem step_of_fetch_beyond {s : State} (hwait : s.waitValid = false) (hpc : 0xFFF < s.pc.toNat + 1) :
    step s = raise (.outOfBounds (max s.pc.toNat 0x1000)) (deliver s) := by
  rcases step_cases s with ⟨hnot, -⟩ | ⟨-, -, h⟩ | ⟨-, hnot, -⟩ | ⟨-, hnot, -⟩
  · exact absurd (hwait.symm.trans hnot) (by decide)
  · exact h
  all_goals omega

theorem step_of_unknown {s : State} (hwait : s.waitValid = false) (hpc : s.pc.toNat + 1 ≤ 0xFFF)
    (hdecode : ∀ i, decode (wordAt s.mem s.pc.toNat) ≠ .ok i) :
    step s = raise (.unknownOpcode (wordAt s.mem s.pc.toNat)) (advance (deliver s)) := by
  rcases step_cases s with ⟨hnot, -⟩ | ⟨-, hnot, -⟩ | ⟨-, -, -, h⟩ | ⟨-, -, i, hi, -⟩
  · exact absurd (hwait.symm.trans hnot) (by decide)
  · omega
  · exact h
  · exact absurd hi (hdecode i)

theorem step_of_decode {s : State} {i : Instr} (hwait : s.waitValid = false) (hpc : s.pc.toNat + 1 ≤ 0xFFF)
    (hdecode : decode (wordAt s.mem s.pc.toNat) = .ok i) : step s = exec i (advance (deliver s)) := by
  rcases step_cases s with ⟨hnot, -⟩ | ⟨-, hnot, -⟩ | ⟨-, -, hnot, -⟩ | ⟨-, -, i', hi', h⟩
  · exact absurd (hwait.symm.trans hnot) (by decide)
  · omega
  · exact absurd hdecode (hnot i)
  · cases hi'.symm.trans hdecode
    exact h

theorem raise_setResult (e : Fault) (s : State) (q : StepResult) : raise e (s.setResult q) = raise e s := by
  unfold raise
  change (match s.cfg.policy with | .logAndSkip => _ | .halt => _) = _
  cases s.cfg.policy <;> rfl

theorem waitStep_setResult (s : State) (q : StepResult) : waitStep (s.setResult q) = waitStep s := by
  unfold waitStep
  change complete false (match firstKey s.keys with | some _ => _ | none => _) = _
  cases firstKey s.keys <;> rfl

/-- An instruction keeps its input ports, so putting them in again changes nothing. -/
theorem exec_setResult (i : Instr) (s : State) (q : StepResult) : exec i (s.setResult q) = exec i s := by
  calc exec i (s.setResult q)
      = exec i (withPorts s.keys s.rnd q s) := rfl
    _ = mapNext (withInputs s.keys s.rnd) (exec i s) := exec_withPorts i s _ _ _ (fun _ => rfl) fun _ => rfl
    _ = mapNext id (exec i s) := mapNext_congr fun t ht => by
        obtain ⟨hkeys, hrnd, -⟩ := (exec_effect ht).ports
        rw [← hkeys, ← hrnd]
        rfl
    _ = exec i s := mapNext_id _

end Sys2Proof.Laws
end

section
/-! PROOFS. What does not depend on the ports (spec/10_state.md R29, spec/40_step_cycle.md R117). -/

namespace Sys2Proof.Proofs

open Sys2Proof.Machine Sys2Proof.Laws

/-- Settles O12, along the ways a step goes: the answer of each overwrites the result. -/
theorem resultsAreNotRemembered : Obligations.ResultsAreNotRemembered := by
  intro s q
  have hdeliver : deliver (s.setResult q) = (deliver s).setResult q := rfl
  rcases step_cases s with ⟨hwait, h⟩ | ⟨hwait, hpc, h⟩ | ⟨hwait, hpc, hdecode, h⟩ | ⟨hwait, hpc, i, hdecode, h⟩ <;> rw [h]
  · rw [step_of_waiting (s := s.setResult q) hwait, hdeliver, waitStep_setResult]
  · rw [step_of_fetch_beyond (s := s.setResult q) hwait hpc, hdeliver, raise_setResult]
    rfl
  · rw [step_of_unknown (s := s.setResult q) hwait hpc hdecode]
    exact raise_setResult _ (advance (deliver s)) q
  · rw [step_of_decode (s := s.setResult q) hwait hpc hdecode]
    exact exec_setResult i (advance (deliver s)) q

/-- Settles O58: only the key snapshot differs, and the random byte of the next state is the one before. -/
theorem otherInstructionsIgnoreTheKeys : Obligations.OtherInstructionsIgnoreTheKeys := by
  intro i s k hi
  calc exec i (withKeys k s)
      = mapNext (withInputs k s.rnd) (exec i s) :=
        exec_withPorts i s k s.rnd s.result (fun h => absurd h hi) fun _ => rfl
    _ = mapNext (withKeys k) (exec i s) := mapNext_congr fun t ht => by
        obtain ⟨-, hrnd, -⟩ := (exec_effect ht).ports
        rw [← hrnd]
        rfl

/-- Settles O59: only the random byte differs, and the key snapshot of the next state is the one before. -/
theorem otherInstructionsIgnoreTheRandomByte : Obligations.OtherInstructionsIgnoreTheRandomByte := by
  intro i s r hi
  calc exec i (withRnd r s)
      = mapNext (withInputs s.keys r) (exec i s) :=
        exec_withPorts i s s.keys r s.result (fun _ => rfl) fun ⟨x, nn, h⟩ => absurd h (hi x nn)
    _ = mapNext (withRnd r) (exec i s) := mapNext_congr fun t ht => by
        obtain ⟨hkeys, -⟩ := (exec_effect ht).ports
        rw [← hkeys]
        rfl

end Sys2Proof.Proofs
end

section
/-! SUPPORT. The parts of a step (spec/40_step_cycle.md R110 to R118): the delivery of the driver's input, the word that is
fetched, the wait step, the delivery of an error; and ticks in a row (spec/60_exceptions.md R253, R254). -/

namespace Sys2Proof.Laws

open Sys2Proof.Machine

/-! ### Inputs and ticks -/

theorem nextInput_of_cons {s : State} {input : DriverInput} {rest : List DriverInput} (h : s.inputs = input :: rest) :
    nextInput s = input := by
  rw [nextInput, h]

theorem nextInput_of_nil {s : State} (h : s.inputs = []) :
    nextInput s = ⟨Config.freeTicks s.drawn, Config.freeKeys s.drawn, Config.freeRnd s.drawn⟩ := by
  rw [nextInput, h]

theorem ticks_zero (s : State) : ticks 0 s = s := by
  rw [ticks, countDownBy_zero, countDownBy_zero]

theorem ticks_succ (n : Nat) (s : State) : ticks (n + 1) s = tick (ticks n s) := by
  rw [ticks, countDownBy_succ, countDownBy_succ]
  rfl

theorem ticks_eq_iterate (n : Nat) (s : State) : ticks n s = tick^[n] s := by
  induction n with
  | zero => exact ticks_zero s
  | succ n ih => rw [ticks_succ, ih, Function.iterate_succ_apply']

theorem countDownBy_eq_zero {n : Nat} {t : Byte} : countDownBy n t = 0 ↔ t.toNat ≤ n := by
  rw [← BitVec.toNat_inj, countDownBy_toNat]
  exact Nat.sub_eq_zero_iff_le

/-! ### The fetched word -/

theorem advance_deliver_pc {s : State} (h : s.pc.toNat + 1 ≤ 0xFFF) :
    (advance (deliver s)).pc.toNat = s.pc.toNat + 2 := by
  change (s.pc + 2).toNat = _
  bv_omega

/-- Two bytes written are the word they make. -/
theorem wordAt_writeAll (m : Memory) (a : Nat) (hi lo : Byte) :
    wordAt (Memory.writeAll m a [hi, lo]) a = wordOfBytes hi lo := by
  simp [wordAt, Memory.writeAll]

/-- What `withFetchWord` gives, for every PC: no wait, a PC that can be fetched from, and the word there (log 10, 25). -/
theorem withFetchWord_eq (s : State) (nbits w : Nat) :
    ∃ pc : Word, pc.toNat + 1 ≤ 0xFFF ∧ s.withFetchWord nbits w =
      ((s.setWait false s.waitReg).setPc pc).setMem
        (Memory.writeAll s.mem pc.toNat (bytesOfWord (tableWord nbits w))) := by
  unfold State.withFetchWord
  dsimp only
  split
  · next h => exact ⟨s.pc, h, rfl⟩
  · exact ⟨0x200, by decide, rfl⟩

theorem decode_of_decodeTableWord {nbits w : Nat} {i : Instr} (h : decodeTableWord nbits w = some i) :
    decode (tableWord nbits w) = .ok i := by
  rw [decodeTableWord, bytesOfWord, decodeBytes, wordOfBytes_hiByte_loByte] at h
  cases hd : decode (tableWord nbits w) with
  | ok i' =>
    rw [hd] at h
    cases h
    rfl
  | error e =>
    rw [hd] at h
    cases h

/-! ### How a step ends -/

/-- What a step returns is no part of the machine. -/
theorem sameMachine_setResult (s : State) (r : StepResult) : SameMachine s (s.setResult r) :=
  ⟨fun _ => rfl, rfl, rfl, ⟨⟨rfl, rfl, rfl, rfl⟩, rfl⟩, fun _ => rfl⟩

theorem samePorts_refl (s : State) : SamePorts s s := ⟨rfl, rfl, rfl, rfl, rfl⟩

/-- Raising an error is the error, for either policy of the driver (R118, R120). -/
theorem isError_raise {e : Fault} {s u : State} {post : State → Prop} (hcfg : u.cfg = s.cfg)
    (h : post (u.setResult (.error e))) : IsError (raise e u) s e post := by
  rw [IsError, ← hcfg]
  exact ⟨(raise_spec e u).1, fun hpolicy => ⟨_, (raise_spec e u).2 hpolicy, rfl, h⟩⟩

theorem waitStep_of_no_key {s : State} (h : s.keys = 0) : waitStep s = complete false s := by
  rw [waitStep, firstKey_eq_none.mpr h]

theorem waitStep_of_key {s : State} {k : Nat} (h : firstKey s.keys = some k) :
    waitStep s = complete false ((s.setReg s.waitReg (BitVec.ofNat 8 k)).setWait false s.waitReg) := by
  rw [waitStep, h]

end Sys2Proof.Laws
end

section
/-! PROOFS. The step (spec/40_step_cycle.md), and many ticks (spec/60_exceptions.md R254). -/

namespace Sys2Proof.Proofs

open Sys2Proof.Machine Sys2Proof.Laws

/-- Settles O6: the delivery and the advance change no other part of the machine. -/
theorem stepRunsTheDecodedInstruction : Obligations.StepRunsTheDecodedInstruction := by
  intro s i hwait hpc hdecode
  exact ⟨step_of_decode hwait hpc hdecode, advance_deliver_pc hpc, fun _ => rfl, rfl, rfl, rfl, rfl, fun _ => rfl⟩

/-- Settles O7: the two bytes placed at PC make the word that the step fetches. -/
theorem placedWordIsRunNext : Obligations.PlacedWordIsRunNext := by
  intro s nbits w i h
  obtain ⟨pc, hpc, heq⟩ := withFetchWord_eq s nbits w
  rw [heq]
  refine step_of_decode rfl hpc ?_
  change decode (wordAt (Memory.writeAll s.mem pc.toNat [hiByte _, loByte _]) pc.toNat) = _
  rw [wordAt_writeAll, wordOfBytes_hiByte_loByte]
  exact decode_of_decodeTableWord h

/-- Settles O8: the input is the oldest waiting or the free values, and each timer is counted down by its ticks. -/
theorem deliverHandsOverTheNextInput : Obligations.DeliverHandsOverTheNextInput := by
  intro s
  refine ⟨fun input rest h => ?_, fun h => ?_, fun _ => rfl, rfl, rfl, rfl, rfl, rfl, rfl, fun _ => rfl⟩
  · rw [deliver_keys, deliver_rnd, deliver_inputs, deliver_dt, deliver_st, nextInput_of_cons h, h]
    exact ⟨rfl, rfl, rfl, countDownBy_toNat _ _, countDownBy_toNat _ _⟩
  · rw [deliver_keys, deliver_rnd, deliver_inputs, deliver_dt, deliver_st, nextInput_of_nil h, h]
    exact ⟨rfl, rfl, rfl, countDownBy_toNat _ _, countDownBy_toNat _ _⟩

/-- Settles O9: a word that no row selects does not decode. -/
theorem unknownWordRaisesUnknownOpcode : Obligations.UnknownWordRaisesUnknownOpcode := by
  intro s hwait hpc hword
  have hdecode : ∀ i, decode (wordAt s.mem s.pc.toNat) ≠ .ok i := by
    intro i hi
    rw [decode_of_not_wellFormedWord hword] at hi
    cases hi
  rw [step_of_unknown hwait hpc hdecode]
  exact isError_raise rfl ⟨advance_deliver_pc hpc, sameMachine_setResult _ _⟩

/-- Settles O10: the first byte beyond 0xFFF is that at PC, or that at 0x1000. -/
theorem fetchBeyondMemoryRaisesOutOfBounds : Obligations.FetchBeyondMemoryRaisesOutOfBounds := by
  intro s hwait
  refine ⟨fun hpc => ?_, fun hpc => ?_⟩
  · rw [step_of_fetch_beyond hwait (by omega), max_eq_left (by omega)]
    exact isError_raise rfl (sameMachine_setResult _ _)
  · rw [step_of_fetch_beyond hwait (by omega), max_eq_right (by omega)]
    exact isError_raise rfl (sameMachine_setResult _ _)

/-- Settles O11: `firstKey` is the least key down, if there is one. -/
theorem waitStepTakesTheLeastKeyDown : Obligations.WaitStepTakesTheLeastKeyDown := by
  intro s hwait
  rw [step_of_waiting hwait]
  refine ⟨fun hnone => ?_, fun k hk hdown hleast => ?_⟩
  · rw [waitStep_of_no_key hnone, complete_eq, deliver_waitValid, hwait]
    exact ⟨_, rfl, rfl, sameMachine_setResult _ _, samePorts_refl _⟩
  · rw [waitStep_of_key (firstKey_eq_some.mpr ⟨hk, hdown, hleast⟩)]
    refine ⟨_, rfl, rfl, rfl, ?_, fun j hj => ?_, rfl, rfl, rfl, rfl, rfl, fun _ => rfl, samePorts_refl _⟩
    · rw [setResult_reg, setWait_reg, setReg_reg, if_pos (deliver_waitReg s).symm, BitVec.toNat_ofNat]
      omega
    · rw [setResult_reg, setWait_reg, setReg_reg, if_neg (deliver_waitReg s ▸ hj), deliver_reg]

/-- Settles O16: `ticks` is the tick iterated, and a timer is counted down to 0 by as many ticks as it holds. -/
theorem manyTicksAreTheTickRepeated : Obligations.ManyTicksAreTheTickRepeated := by
  refine ⟨ticks_eq_iterate, fun n s => ?_⟩
  rw [← ticks_eq_iterate]
  exact ⟨countDownBy_eq_zero, countDownBy_eq_zero⟩

end Sys2Proof.Proofs
end

section
/-! SUPPORT. The answers of single instructions: how an instruction completes or raises, stated through its `exec` equation;
calls and returns (spec/41_control_flow.md), results with flags (spec/42_load_alu.md R150), loads of I, and stores and loads
of runs of bytes (spec/43_index_memory.md). -/

namespace Sys2Proof.Laws

open Sys2Proof.Machine

theorem completes_of_exec {i : Instr} {s u : State} {drew : Bool} {post : State → Prop} (h : exec i s = complete drew u)
    (hports : SamePorts s u) (hpost : post (u.setResult (.sideEffects drew u.waitValid))) : Completes i s drew post :=
  ⟨_, h, rfl, hports, hpost⟩

theorem raises_of_exec {i : Instr} {s u : State} {e : Fault} {post : State → Prop} (h : exec i s = raise e u)
    (hports : SamePorts s u) (hpost : post (u.setResult (.error e))) : Raises i s e post := by
  rw [Raises, h]
  obtain ⟨-, -, -, -, hcfg⟩ := id hports
  exact isError_raise hcfg ⟨hports, hpost⟩

theorem raises_mono {i : Instr} {s : State} {e : Fault} {P Q : State → Prop} (h : Raises i s e P) (hPQ : ∀ t, P t → Q t) :
    Raises i s e Q := by
  obtain ⟨hhalt, hgoesOn⟩ := h
  refine ⟨hhalt, fun hpolicy => ?_⟩
  obtain ⟨t, hexec, hresult, hports, hP⟩ := hgoesOn hpolicy
  exact ⟨t, hexec, hresult, hports, hPQ t hP⟩

/-! ### Runs of bytes in memory -/

theorem read_writeAll_of_getElem? {bs : List Byte} {j : Nat} {b : Byte} (h : bs[j]? = some b) (m : Memory) (a : Nat) :
    Memory.read (Memory.writeAll m a bs) (a + j) = b := by
  obtain ⟨hj, -⟩ := List.getElem?_eq_some_iff.mp h
  rw [read_writeAll, if_pos (by omega), Nat.add_sub_cancel_left, List.getD_eq_getElem?_getD, h]
  rfl

theorem read_writeAll_outside {bs : List Byte} {a a' : Nat} (h : ¬ (a ≤ a' ∧ a' < a + bs.length)) (m : Memory) :
    Memory.read (Memory.writeAll m a bs) a' = Memory.read m a' := by
  rw [read_writeAll, if_neg h]

/-! ### Calls and returns -/

/-- 2NNN where the entry is in memory: the two bytes of PC at SP (R130, R134). -/
theorem exec_call {s : State} (hne : s.sp ≠ stackLimit) (hmem : s.sp.toNat + 1 ≤ 0xFFF) (nnn : Addr12) :
    exec (.call nnn) s = complete false
      (((s.setMem (Memory.writeAll s.mem s.sp.toNat (bytesOfWord s.pc))).setSp (s.sp + 2)).setPc (zextAddr nnn)) := by
  rw [exec, execCall, push_inside hne hmem]
  rfl

/-- 00EE where the entry is in memory (R131, R132). -/
theorem exec_ret {s : State} (hne : s.sp ≠ stackBase) (hmem : (s.sp - 2).toNat + 1 ≤ 0xFFF) :
    exec .ret s = complete false ((s.setSp (s.sp - 2)).setPc (wordAt s.mem (s.sp - 2).toNat)) := by
  rw [exec, execRet, pop_inside hne hmem]
  rfl

/-! ### Results and flags -/

/-- The frame of an instruction that writes a result and then its flag, said once. -/
theorem writesVxThenFlag_of_exec {i : Instr} {s : State} {x : RegIdx} {b : Byte} {c : Bool} {flag : Prop}
    (h : exec i s = complete false (writeResultThenFlag x b c s)) (hc : c = true ↔ flag) :
    WritesVxThenFlag i s x b flag := by
  have hvf : (writeResultThenFlag x b c s).reg vf = flagByte c := setFlag_reg_vf _ c
  have hother : ∀ j, j ≠ vf → (writeResultThenFlag x b c s).reg j = if j = x then b else s.reg j := by
    intro j hj
    rw [writeResultThenFlag, setFlag_reg_of_ne _ c hj, setReg_reg]
  refine completes_of_exec h (samePorts_refl s)
    ⟨fun hx => ?_, fun hflag => ?_, fun hflag => ?_, fun j hj => ?_, rfl, rfl, ⟨⟨rfl, rfl, rfl, rfl⟩, rfl⟩, fun _ => rfl⟩
  · rw [setResult_reg, hother x hx, if_pos rfl]
  · exact hvf.trans (by rw [hc.mpr hflag]; rfl)
  · exact hvf.trans (by rw [Bool.eq_false_iff.mpr (mt hc.mp hflag)]; rfl)
  · rw [setResult_reg, hother j fun h => hj (.inr h), if_neg fun h => hj (.inl h)]

/-- The difference of two bytes, reduced as R164 writes it. -/
theorem byte_sub_eq_ofNat_mod (a b : Byte) : a - b = BitVec.ofNat 8 ((a.toNat + 256 - b.toNat) % 256) := by
  apply BitVec.eq_of_toNat_eq
  have := b.isLt
  rw [BitVec.toNat_sub, BitVec.toNat_ofNat]
  omega

theorem byte_shiftRight_one (a : Byte) : a >>> 1 = BitVec.ofNat 8 (a.toNat / 2) := by
  apply BitVec.eq_of_toNat_eq
  have := a.isLt
  rw [BitVec.toNat_ushiftRight, BitVec.toNat_ofNat, Nat.shiftRight_eq_div_pow]
  omega

theorem byte_shiftLeft_one (a : Byte) : a <<< 1 = BitVec.ofNat 8 (2 * a.toNat % 256) := by
  apply BitVec.eq_of_toNat_eq
  rw [BitVec.toNat_shiftLeft, BitVec.toNat_ofNat, Nat.shiftLeft_eq]
  omega

theorem lowBit_iff {a : Byte} : lowBit a = true ↔ a.toNat % 2 = 1 := by
  rw [lowBit, BitVec.getLsbD, Nat.testBit_zero, decide_eq_true_iff]

theorem highBit_iff {a : Byte} : highBit a = true ↔ a.toNat / 128 = 1 := by
  have := a.isLt
  rw [highBit, BitVec.getLsbD, Nat.testBit_eq_decide_div_mod_eq, decide_eq_true_iff]
  omega

/-! ### I -/

/-- The frame of an instruction that only writes I, said once. -/
theorem writesOnlyI_of_exec {i : Instr} {s : State} {w : Word} (h : exec i s = complete false (s.setI w)) :
    WritesOnlyI i s w.toNat :=
  completes_of_exec h (samePorts_refl s) ⟨rfl, fun _ => rfl, rfl, ⟨⟨rfl, rfl, rfl, rfl⟩, rfl⟩, fun _ => rfl⟩

theorem glyphAddress_toNat (a : Byte) : (glyphAddress a).toNat = a.toNat * 5 := by
  have := a.isLt
  rw [glyphAddress, BitVec.toNat_ofNat]
  omega

/-! ### Stores and loads of a run of bytes -/

/-- The digits as numbers: each is below 256. -/
theorem decimalDigits_toNat (a : Byte) :
    (BitVec.ofNat 8 (a.toNat / 100)).toNat = a.toNat / 100 ∧
      (BitVec.ofNat 8 (a.toNat / 10 % 10)).toNat = a.toNat / 10 % 10 ∧
      (BitVec.ofNat 8 (a.toNat % 10)).toNat = a.toNat % 10 := by
  have := a.isLt
  simp only [BitVec.toNat_ofNat]
  omega

section Stores

variable {i : Instr} {s : State} {bs : List Byte}

/-- An instruction that stores bytes from I on, all of them in memory. -/
theorem completes_of_store (h : exec i s = finish false (storeBytes (indexBase s) bs s))
    (hfit : s.i.toNat + bs.length ≤ 0x1000) :
    Completes i s false fun t =>
      t.mem = Memory.writeAll s.mem s.i.toNat bs ∧ SameRegs s t ∧ t.i = s.i ∧ t.pc = s.pc ∧ SameSpecials s t := by
  rw [storeBytes_spec, if_pos (.inr hfit)] at h
  exact completes_of_exec_setMem h

/-- An instruction that stores bytes from I on, not all of them in memory: those in memory are stored (R118). -/
theorem raises_of_store (h : exec i s = finish false (storeBytes (indexBase s) bs s)) (hne : bs ≠ [])
    (hbeyond : 0x1000 < s.i.toNat + bs.length) :
    Raises i s (.outOfBounds (max s.i.toNat 0x1000)) fun t =>
      t.mem = Memory.writeAll s.mem s.i.toNat (bs.take (0x1000 - s.i.toNat)) ∧
      SameRegs s t ∧ t.i = s.i ∧ t.pc = s.pc ∧ SameSpecials s t := by
  have hout : ¬ (bs = [] ∨ indexBase s + bs.length ≤ 0x1000) := by
    rw [indexBase]
    exact not_or.mpr ⟨hne, by omega⟩
  rw [storeBytes_spec, if_neg hout] at h
  exact raises_of_exec h (samePorts_refl s) ⟨rfl, fun _ => rfl, rfl, rfl, ⟨⟨rfl, rfl, rfl, rfl⟩, rfl⟩⟩

end Stores

theorem regsUpTo_getElem? {x j : RegIdx} (h : j ≤ x) : (regsUpTo x)[j.toNat]? = some j := by
  have hlt : j.toNat < (regsUpTo x).length := by
    rw [regsUpTo_length]
    exact Nat.lt_succ_of_le h
  rw [List.getElem?_eq_getElem hlt, regsUpTo_getElem, BitVec.ofNat_toNat, BitVec.setWidth_eq]

theorem toNat_lt_of_mem_take_regsUpTo {x j : RegIdx} {n : Nat} (h : j ∈ (regsUpTo x).take n) : j.toNat < n := by
  obtain ⟨k, hk, rfl⟩ := List.mem_take_iff_getElem.mp h
  rw [regsUpTo_getElem, BitVec.toNat_ofNat]
  omega

/-- The register at position `k` of the list gets the byte at `a + k`. -/
theorem loadAll_reg_of_getElem? {js : List RegIdx} {k : Nat} {j : RegIdx} (hn : js.Nodup) (h : js[k]? = some j)
    (m : Memory) (a : Nat) (s : State) : (loadAll m a js s).reg j = Memory.read m (a + k) := by
  obtain ⟨hk, rfl⟩ := List.getElem?_eq_some_iff.mp h
  exact loadAll_reg_of_getElem m js a s hn hk

theorem loadAll_frame_fields (m : Memory) (js : List RegIdx) (a : Nat) (s : State) :
    (loadAll m a js s).i = s.i ∧ (loadAll m a js s).pc = s.pc ∧ SameSpecials s (loadAll m a js s) ∧
      SameMemory s (loadAll m a js s) ∧ SamePorts s (loadAll m a js s) := by
  rw [loadAll_frame]
  exact ⟨rfl, rfl, ⟨⟨rfl, rfl, rfl, rfl⟩, rfl⟩, fun _ => rfl, rfl, rfl, rfl, rfl, rfl⟩

/-- FX65 with all its bytes in memory (R185). -/
theorem exec_ldRegs_inside {s : State} {x : RegIdx} (h : s.i.toNat + x.toNat ≤ 0xFFF) :
    exec (.ldRegs x) s = complete false (loadAll s.mem s.i.toNat (regsUpTo x) s) := by
  have hfit : indexBase s + (regsUpTo x).length ≤ 0x1000 := by
    rw [regsUpTo_length, indexBase]
    omega
  rw [exec, execLdRegs, loadBytes_spec, if_pos (.inr hfit)]
  rfl

/-- FX65 with a byte beyond memory: the registers whose bytes are in memory are loaded (R118, R185). -/
theorem exec_ldRegs_beyond {s : State} {x : RegIdx} (h : 0xFFF < s.i.toNat + x.toNat) :
    exec (.ldRegs x) s = raise (.outOfBounds (max s.i.toNat 0x1000))
      (loadAll s.mem s.i.toNat ((regsUpTo x).take (0x1000 - s.i.toNat)) s) := by
  have hlength := regsUpTo_length x
  have hout : ¬ (regsUpTo x = [] ∨ indexBase s + (regsUpTo x).length ≤ 0x1000) := by
    rw [← List.length_eq_zero_iff, hlength, indexBase]
    omega
  rw [exec, execLdRegs, loadBytes_spec, if_neg hout]
  rfl

end Sys2Proof.Laws
end

section
/-! PROOFS. Control flow, the ALU, the index register and data memory (spec/41_control_flow.md to
spec/43_index_memory.md). -/

namespace Sys2Proof.Proofs

open Sys2Proof.Machine Sys2Proof.Laws

/-- Settles O18: the sum of 12 bits and 8 bits is exact in 16. -/
theorem jumpV0AddsV0 : Obligations.JumpV0AddsV0 := by
  intro s nnn
  have hsum : (BitVec.ofNat 16 (nnn.toNat + (s.reg 0).toNat)).toNat = nnn.toNat + (s.reg 0).toNat := by
    have := nnn.isLt
    have := (s.reg 0).isLt
    rw [BitVec.toNat_ofNat]
    omega
  rw [← hsum]
  exact jumpsTo_of_exec rfl

/-- Settles O19: the entry is the two bytes of PC, written at SP. -/
theorem callPushesTheReturnAddress : Obligations.CallPushesTheReturnAddress := by
  intro s nnn hne hmem
  refine completes_of_exec (exec_call hne hmem nnn) (samePorts_refl s)
    ⟨zextAddr_toNat nnn, rfl, ?_, ?_, fun a ha => read_writeAll_outside ?_ s.mem, fun _ => rfl, rfl, rfl, rfl, rfl, rfl⟩
  · exact (congrArg _ (read_writeAll_of_getElem? (j := 0) rfl s.mem s.sp.toNat)).trans (hiByte_toNat s.pc)
  · exact (congrArg _ (read_writeAll_of_getElem? (j := 1) rfl s.mem s.sp.toNat)).trans (loByte_toNat s.pc)
  · change ¬ (s.sp.toNat ≤ a ∧ a < s.sp.toNat + 2)
    omega

/-- Settles O20: PC is the word that the two bytes make. -/
theorem returnPopsPc : Obligations.ReturnPopsPc := by
  intro s hne hmem
  exact completes_of_exec (exec_ret hne hmem) (samePorts_refl s)
    ⟨rfl, wordOfBytes_toNat _ _, fun _ => rfl, fun _ => rfl, rfl, rfl, rfl, rfl, rfl⟩

/-- Settles O21: the check fails before anything is changed. -/
theorem fullCallAndEmptyReturnRaise : Obligations.FullCallAndEmptyReturnRaise := by
  intro s nnn
  refine ⟨fun hfull => ?_, fun hempty => ?_⟩
  · have hexec : exec (.call nnn) s = raise .stackOverflow s := by
      rw [exec, execCall, push_full hfull]
      rfl
    exact raises_of_exec hexec (samePorts_refl s) (sameMachine_setResult s _)
  · have hexec : exec .ret s = raise .stackUnderflow s := by
      rw [exec, execRet, pop_empty hempty]
      rfl
    exact raises_of_exec hexec (samePorts_refl s) (sameMachine_setResult s _)

/-- Settles O22: SP comes back to the entry of the call, and the entry is the PC of the call. -/
theorem returnAfterCallComesBack : Obligations.ReturnAfterCallComesBack := by
  intro s nnn hlegal hne
  have hmem := push_address_le hlegal
  refine ⟨_, exec_call hne hmem nnn, zextAddr_toNat nnn, fun u hsp hhi hlo => ?_⟩
  have hsp : u.sp = s.sp + 2 := hsp
  have hback : u.sp - 2 = s.sp := by rw [hsp, BitVec.add_sub_cancel]
  have hnotEmpty : u.sp ≠ 0xEA0 := by
    obtain ⟨hlow, -, -⟩ := hlegal
    bv_omega
  have hword : wordAt u.mem (u.sp - 2).toNat = s.pc := by
    rw [hback, wordAt, hhi, hlo]
    exact (wordAt_writeAll s.mem s.sp.toNat _ _).trans (wordOfBytes_hiByte_loByte s.pc)
  exact ⟨_, exec_ret hnotEmpty (hback ▸ hmem), hword, hback⟩

/-- Settles O25: each instruction writes a result and then a flag. -/
theorem addAndSubtractSetVxThenFlag : Obligations.AddAndSubtractSetVxThenFlag := by
  intro s x y
  rw [← byte_add_eq_ofNat_mod, ← byte_sub_eq_ofNat_mod, ← byte_sub_eq_ofNat_mod]
  exact ⟨writesVxThenFlag_of_exec rfl decide_eq_true_iff, writesVxThenFlag_of_exec rfl decide_eq_true_iff,
    writesVxThenFlag_of_exec rfl decide_eq_true_iff⟩

/-- Settles O26: the shifts by one are the half and the double, and the flag is the bit shifted out. -/
theorem shiftsSetVxThenFlag : Obligations.ShiftsSetVxThenFlag := by
  intro s x y
  rw [← byte_shiftRight_one, ← byte_shiftLeft_one]
  exact ⟨writesVxThenFlag_of_exec rfl lowBit_iff, writesVxThenFlag_of_exec rfl highBit_iff⟩

/-- Settles O27: the instruction is one `setReg` of VX, and the random byte of that state is r. -/
theorem randomWritesTheMaskedByte : Obligations.RandomWritesTheMaskedByte := by
  intro s x nn r
  exact writesOnlyVx_of_exec rfl

/-- Settles O28: the encodings are those of the rows, and each instruction is one `setI`. -/
theorem indexLoadsSetI : Obligations.IndexLoadsSetI := by
  intro s nnn x
  refine ⟨encodedAs (.ldI nnn), encodedAs (.ldF x), ?_⟩
  rw [← zextAddr_toNat nnn, ← glyphAddress_toNat]
  exact ⟨writesOnlyI_of_exec rfl, writesOnlyI_of_exec rfl⟩

/-- Settles O29: the flag tests the sum before it is reduced. -/
theorem addIndexSetsIAndFlag : Obligations.AddIndexSetsIAndFlag := by
  intro s x
  refine completes_of_exec rfl (samePorts_refl s) ⟨BitVec.toNat_ofNat _ _, fun habove => ?_, fun hbelow => ?_,
    fun j hj => ?_, rfl, ⟨⟨rfl, rfl, rfl, rfl⟩, rfl⟩, fun _ => rfl⟩
  · exact (setFlag_reg_vf _ _).trans (congrArg flagByte (decide_eq_true habove))
  · exact (setFlag_reg_vf _ _).trans (congrArg flagByte (decide_eq_false (Nat.not_lt.mpr hbelow)))
  · rw [setResult_reg, setFlag_reg_of_ne _ _ hj, setI_reg]

/-- Settles O30: the three digits are bytes. -/
theorem decimalDigitsAreStoredAtI : Obligations.DecimalDigitsAreStoredAtI := by
  intro s x h
  refine completes_mono (completes_of_store rfl (show s.i.toNat + 3 ≤ 0x1000 by omega)) fun t ⟨hmem, hframe⟩ => ?_
  obtain ⟨hhundreds, htens, hones⟩ := decimalDigits_toNat (s.reg x)
  rw [SameMemoryOutside, hmem]
  refine ⟨?_, ?_, ?_, fun a ha => read_writeAll_outside ?_ s.mem, hframe⟩
  · exact (congrArg _ (read_writeAll_of_getElem? (j := 0) rfl s.mem s.i.toNat)).trans hhundreds
  · exact (congrArg _ (read_writeAll_of_getElem? (j := 1) rfl s.mem s.i.toNat)).trans htens
  · exact (congrArg _ (read_writeAll_of_getElem? (j := 2) rfl s.mem s.i.toNat)).trans hones
  · change ¬ (s.i.toNat ≤ a ∧ a < s.i.toNat + 3)
    omega

/-- Settles O31: none, one or two of the three digits are stored. -/
theorem decimalDigitsBeyondMemoryRaise : Obligations.DecimalDigitsBeyondMemoryRaise := by
  intro s x
  obtain ⟨hhundreds, htens, -⟩ := decimalDigits_toNat (s.reg x)
  have hraises (h : 0xFFE ≤ s.i.toNat) := raises_of_store (i := .ldB x) (s := s) rfl (List.cons_ne_nil _ _)
    (show 0x1000 < s.i.toNat + 3 by omega)
  refine ⟨fun h => ?_, fun h => ?_, fun h => ?_⟩
  · rw [← max_eq_left (show 0x1000 ≤ s.i.toNat by omega)]
    refine raises_mono (hraises (by omega)) fun t ⟨hmem, hregs, hi, hpc, hspecials⟩ =>
      ⟨hregs, hi, hpc, hspecials, fun a => ?_⟩
    rw [hmem, show 0x1000 - s.i.toNat = 0 by omega]
    rfl
  · have hraises := hraises (by omega)
    rw [h] at hraises
    refine raises_mono hraises fun t ⟨hmem, hframe⟩ => ?_
    rw [SameMemoryOutside, hmem]
    refine ⟨(congrArg _ (read_writeAll_of_getElem? (j := 0) rfl s.mem 0xFFF)).trans hhundreds,
      fun a ha => read_writeAll_outside ?_ s.mem, hframe⟩
    change ¬ (0xFFF ≤ a ∧ a < 0xFFF + 1)
    omega
  · have hraises := hraises (by omega)
    rw [h] at hraises
    refine raises_mono hraises fun t ⟨hmem, hframe⟩ => ?_
    rw [SameMemoryOutside, hmem]
    refine ⟨(congrArg _ (read_writeAll_of_getElem? (j := 0) rfl s.mem 0xFFE)).trans hhundreds,
      (congrArg _ (read_writeAll_of_getElem? (j := 1) rfl s.mem 0xFFE)).trans htens,
      fun a ha => read_writeAll_outside ?_ s.mem, hframe⟩
    change ¬ (0xFFE ≤ a ∧ a < 0xFFE + 2)
    omega

/-- Settles O32: byte j of the run is Vj. -/
theorem registersAreStoredFromI : Obligations.RegistersAreStoredFromI := by
  intro s x h
  have hlength : ((regsUpTo x).map s.reg).length = x.toNat + 1 := by rw [List.length_map, regsUpTo_length]
  refine completes_mono (completes_of_store rfl (by omega)) fun t ⟨hmem, hframe⟩ => ?_
  rw [SameMemoryOutside, hmem]
  refine ⟨fun j hj => read_writeAll_of_getElem? ?_ s.mem s.i.toNat, fun a ha => read_writeAll_outside ?_ s.mem, hframe⟩
  · rw [List.getElem?_map, regsUpTo_getElem? hj]
    rfl
  · rw [hlength]
    omega

/-- Settles O33: byte j of the run is Vj, as far as the run is stored. -/
theorem registerStoreBeyondMemoryRaises : Obligations.RegisterStoreBeyondMemoryRaises := by
  intro s x h
  have hlength : ((regsUpTo x).map s.reg).length = x.toNat + 1 := by rw [List.length_map, regsUpTo_length]
  have hne : (regsUpTo x).map s.reg ≠ [] := List.ne_nil_of_length_pos (by omega)
  refine raises_mono (raises_of_store rfl hne (by omega)) fun t ⟨hmem, hframe⟩ => ?_
  rw [SameMemoryOutside, hmem]
  refine ⟨fun j hj => read_writeAll_of_getElem? ?_ s.mem s.i.toNat, fun a ha => read_writeAll_outside ?_ s.mem, hframe⟩
  · have hjx : j ≤ x := by
      rw [BitVec.le_def]
      omega
    rw [List.getElem?_take_of_lt (by omega), List.getElem?_map, regsUpTo_getElem? hjx]
    rfl
  · rw [List.length_take]
    omega

/-- Settles O34: the registers of the list get their bytes, the others are not in it. -/
theorem registersAreLoadedFromI : Obligations.RegistersAreLoadedFromI := by
  intro s x h
  obtain ⟨hi, hpc, hspecials, hmem, hports⟩ := loadAll_frame_fields s.mem (regsUpTo x) s.i.toNat s
  refine completes_of_exec (exec_ldRegs_inside h) hports ⟨fun j hj => ?_, fun j hj => ?_, hi, hpc, hspecials, hmem⟩
  · exact loadAll_reg_of_getElem? (regsUpTo_nodup x) (regsUpTo_getElem? hj) s.mem s.i.toNat s
  · exact loadAll_reg_of_not_mem s.mem _ s.i.toNat s (mt mem_regsUpTo.mp hj)

/-- Settles O35: the registers loaded are those whose byte is in memory. -/
theorem registerLoadBeyondMemoryRaises : Obligations.RegisterLoadBeyondMemoryRaises := by
  intro s x h
  obtain ⟨hi, hpc, hspecials, hmem, hports⟩ :=
    loadAll_frame_fields s.mem ((regsUpTo x).take (0x1000 - s.i.toNat)) s.i.toNat s
  refine raises_of_exec (exec_ldRegs_beyond h) hports ⟨fun j hj => ?_, fun j hj => ?_, hi, hpc, hspecials, hmem⟩
  · have hjx : j ≤ x := by
      rw [BitVec.le_def]
      omega
    refine loadAll_reg_of_getElem? ((regsUpTo_nodup x).sublist (List.take_sublist _ _)) ?_ s.mem s.i.toNat s
    rw [List.getElem?_take_of_lt (by omega), regsUpTo_getElem? hjx]
  · refine loadAll_reg_of_not_mem s.mem _ s.i.toNat s fun hmem => hj ?_
    have := toNat_lt_of_mem_take_regsUpTo hmem
    omega

/-- Settles O36: FX65 loads the bytes that FX55 stored. -/
theorem storeThenLoadRestoresTheRegisters : Obligations.StoreThenLoadRestoresTheRegisters := by
  intro s x h
  obtain ⟨t, hstore, -, -, hstored, -, -, hi, -⟩ := registersAreStoredFromI s x h
  refine ⟨t, hstore, fun u hui hsame => ?_⟩
  rw [hi] at hui
  obtain ⟨w, hload, -, -, hloaded, -⟩ := registersAreLoadedFromI u x (hui ▸ h)
  refine ⟨w, hload, fun j hj => ?_⟩
  rw [hloaded j hj, hui, hsame, hstored j hj]

/-- Settles O14: the word at PC is then V0, V1. -/
theorem storedCodeIsFetchedNext : Obligations.StoredCodeIsFetchedNext := by
  intro s i hwait hi hpc hdecode
  have hfit : s.i.toNat + (1 : RegIdx).toNat ≤ 0xFFF := by
    rw [hi]
    exact hpc
  obtain ⟨t, hstore, -, -, hstored, -, -, -, hpcKept, ⟨-, -, hwaitKept, -⟩, -⟩ := registersAreStoredFromI s 1 hfit
  have hword : wordAt t.mem t.pc.toNat = wordOfBytes (s.reg 0) (s.reg 1) := by
    rw [hpcKept, ← hi]
    exact congrArg₂ wordOfBytes (hstored 0 (by decide)) (hstored 1 (by decide))
  exact ⟨t, hstore, step_of_decode (hwaitKept.trans hwait) (hpcKept ▸ hpc) (hword ▸ hdecode)⟩

end Sys2Proof.Proofs
end

section
/-! SUPPORT. Sprites (spec/44_display.md R201, R202): the bytes a sprite leaves alone, its bits row by row, what a sprite that
does not lie under itself draws, and a sprite that runs beyond memory. -/

namespace Sys2Proof.Laws

open Sys2Proof.Machine

/-! ### The bytes a sprite leaves alone -/

theorem read_drawPixel {px py a : Nat} {s : State}
    (h : ∀ x y, resolvePixel s.cfg.edge px py = some (x, y) → a ≠ fbAddr x y) :
    Memory.read (drawPixel px py s).mem a = Memory.read s.mem a := by
  rcases drawPixel_cases px py s with ⟨-, heq⟩ | ⟨x, y, hr, heq⟩
  · rw [heq]
  · have hmem : (drawPixel px py s).mem = togglePixel s.mem x y := by
      rw [heq]
      split <;> rfl
    rw [hmem, togglePixel, read_write, if_neg (h x y hr)]

theorem read_drawRow {x0 py a : Nat} {s : State} (b : Byte)
    (h : ∀ bit x y, bit < 8 → resolvePixel s.cfg.edge (x0 + bit) py = some (x, y) → a ≠ fbAddr x y) :
    Memory.read (drawRow x0 py b s).mem a = Memory.read s.mem a := by
  suffices hrow : (drawRow x0 py b s).cfg = s.cfg ∧ Memory.read (drawRow x0 py b s).mem a = Memory.read s.mem a from hrow.2
  refine List.foldlRecOn (motive := fun t : State => t.cfg = s.cfg ∧ Memory.read t.mem a = Memory.read s.mem a)
    (List.range 8) _ ⟨rfl, rfl⟩ fun t ⟨hcfg, hread⟩ bit hbit => ?_
  split
  · refine ⟨(drawPixel_frame _ _ t).cfg_eq.trans hcfg, (read_drawPixel ?_).trans hread⟩
    rw [hcfg]
    exact fun x y => h bit x y (List.mem_range.mp hbit)
  · exact ⟨hcfg, hread⟩

theorem underSprite_mono {edge : EdgeMode} {n n' x0 y0 a : Nat} (hn : n ≤ n') (h : underSprite edge n x0 y0 a) :
    underSprite edge n' x0 y0 a := by
  obtain ⟨bit, row, px, py, hbit, hrow, hr, ha⟩ := h
  exact ⟨bit, row, px, py, hbit, hrow.trans_le hn, hr, ha⟩

/-- The last row of a sprite leaves every byte alone that is not under the sprite. -/
theorem read_drawRow_of_not_underSprite {n x0 y0 a : Nat} {s : State} (b : Byte)
    (h : ¬ underSprite s.cfg.edge (n + 1) x0 y0 a) :
    Memory.read (drawRow x0 (y0 + n) b s).mem a = Memory.read s.mem a :=
  read_drawRow b fun bit x y hbit hr ha => h ⟨bit, n, x, y, hbit, n.lt_succ_self, hr, ha⟩

/-- One row more, its byte in memory. -/
theorem drawRows_succ_of_done {n a x0 y0 : Nat} {s t : State} (h : drawRows a x0 y0 n s = .done () t)
    (ha : a + n ≤ 0xFFF) :
    drawRows a x0 y0 (n + 1) s = .done () (drawRow x0 (y0 + n) (Memory.read t.mem (a + n)) t) := by
  rw [drawRows_succ, h, andThen_done, memRead_inside ha, andThen_done]

/-- A sprite in memory is drawn, and leaves every byte alone that is not under it. -/
theorem exists_drawRows_done {n a : Nat} (x0 y0 : Nat) (s : State) (hn : n = 0 ∨ a + n ≤ 0x1000) :
    ∃ t, drawRows a x0 y0 n s = .done () t ∧ DrawFrame s t ∧
      ∀ b, ¬ underSprite s.cfg.edge n x0 y0 b → Memory.read t.mem b = Memory.read s.mem b := by
  induction n with
  | zero => exact ⟨s, rfl, .refl s, fun _ _ => rfl⟩
  | succ n ih =>
    obtain ⟨t, ht, hframe, hkept⟩ := ih (.inr (by omega))
    refine ⟨_, drawRows_succ_of_done ht (by omega), hframe.trans (drawRow_frame _ _ _ t), fun b hb => ?_⟩
    rw [read_drawRow_of_not_underSprite _ (hframe.cfg_eq ▸ hb), hkept b (mt (underSprite_mono n.le_succ) hb)]

/-! ### The bits of a sprite -/

theorem spriteBit_eq_true {edge : EdgeMode} {m : Memory} {a n x0 y0 px py : Nat} :
    spriteBit edge m a n x0 y0 px py = true ↔
      ∃ column row, spriteOffset edge 64 x0 px = some column ∧ spriteOffset edge 32 y0 py = some row ∧
        column < 8 ∧ row < n ∧ (Memory.read m (a + row)).getLsbD (7 - column) = true := by
  unfold spriteBit
  cases spriteOffset edge 64 x0 px <;> cases spriteOffset edge 32 y0 py <;> simp [and_assoc]

/-- Only the sprite's own bytes matter. -/
theorem spriteBit_congr {edge : EdgeMode} {m m' : Memory} {a n x0 y0 : Nat}
    (h : ∀ row, row < n → Memory.read m (a + row) = Memory.read m' (a + row)) :
    spriteBit edge m a n x0 y0 = spriteBit edge m' a n x0 y0 := by
  funext px py
  rw [Bool.eq_iff_iff, spriteBit_eq_true, spriteBit_eq_true]
  refine exists_congr fun column => exists_congr fun row => ?_
  refine and_congr_right fun _ => and_congr_right fun _ => and_congr_right fun _ => and_congr_right fun hrow => ?_
  rw [h row hrow]

/-- Row `n` of a sprite is the first row of the sprite that begins there. -/
theorem spriteOffset_add_eq_zero {edge : EdgeMode} {y0 n py : Nat} (hn : n < 32) (hy : py < 32) :
    spriteOffset edge 32 (y0 + n) py = some 0 ↔ spriteOffset edge 32 y0 py = some n := by
  cases edge with
  | clip =>
    simp only [spriteOffset]
    by_cases hbelow : y0 + n ≤ py <;> by_cases hfirst : y0 ≤ py <;> simp [hbelow, hfirst] <;> omega
  | wrap =>
    simp only [spriteOffset, Option.some.injEq]
    omega

/-- The bits of row `n`, drawn as a sprite of one row. -/
theorem spriteBit_row_eq_true {edge : EdgeMode} {m : Memory} {a n x0 y0 px py : Nat} (hn : n < 32) (hy : py < 32) :
    spriteBit edge m (a + n) 1 x0 (y0 + n) px py = true ↔
      ∃ column, spriteOffset edge 64 x0 px = some column ∧ spriteOffset edge 32 y0 py = some n ∧ column < 8 ∧
        (Memory.read m (a + n)).getLsbD (7 - column) = true := by
  rw [spriteBit_eq_true]
  refine exists_congr fun column => ⟨?_, ?_⟩
  · rintro ⟨row, hc, hr, hcolumn, hrow, hbit⟩
    obtain rfl : row = 0 := by omega
    exact ⟨hc, (spriteOffset_add_eq_zero hn hy).mp hr, hcolumn, hbit⟩
  · rintro ⟨hc, hr, hcolumn, hbit⟩
    exact ⟨0, hc, (spriteOffset_add_eq_zero hn hy).mpr hr, hcolumn, Nat.one_pos, hbit⟩

/-- The bits of a sprite of one row more are its bits before and those of the row. -/
theorem spriteBit_succ {edge : EdgeMode} {m : Memory} {a n x0 y0 px py : Nat} (hn : n < 32) (hy : py < 32) :
    spriteBit edge m a (n + 1) x0 y0 px py =
      (spriteBit edge m a n x0 y0 px py || spriteBit edge m (a + n) 1 x0 (y0 + n) px py) := by
  rw [Bool.eq_iff_iff, Bool.or_eq_true, spriteBit_eq_true, spriteBit_eq_true, spriteBit_row_eq_true hn hy]
  constructor
  · rintro ⟨column, row, hc, hr, hcolumn, hrow, hbit⟩
    rcases Nat.lt_succ_iff_lt_or_eq.mp hrow with hlt | rfl
    · exact .inl ⟨column, row, hc, hr, hcolumn, hlt, hbit⟩
    · exact .inr ⟨column, hc, hr, hcolumn, hbit⟩
  · rintro (⟨column, row, hc, hr, hcolumn, hrow, hbit⟩ | ⟨column, hc, hr, hcolumn, hbit⟩)
    · exact ⟨column, row, hc, hr, hcolumn, hrow.trans n.lt_succ_self, hbit⟩
    · exact ⟨column, n, hc, hr, hcolumn, n.lt_succ_self, hbit⟩

/-- A pixel belongs to one row of a sprite only. -/
theorem spriteBit_row_eq_false {edge : EdgeMode} {m : Memory} {a n x0 y0 px py : Nat} (hn : n < 32) (hy : py < 32)
    (h : spriteBit edge m a n x0 y0 px py = true) : spriteBit edge m (a + n) 1 x0 (y0 + n) px py = false := by
  rw [Bool.eq_false_iff, ne_eq, spriteBit_row_eq_true hn hy]
  rintro ⟨-, -, hr, -⟩
  obtain ⟨-, row, -, hr', -, hrow, -⟩ := spriteBit_eq_true.mp h
  cases hr.symm.trans hr'
  exact lt_irrefl n hrow

/-! ### What is drawn -/

theorem Drawn.congr {bits bits' : Nat → Nat → Bool} {s t : State} (h : Drawn bits s t)
    (heq : ∀ x y, x < 64 → y < 32 → bits x y = bits' x y) : Drawn bits' s t where
  frame := h.frame
  pixel x y hx hy := by rw [h.pixel x y hx hy, heq x y hx hy]
  flag := by
    rw [h.flag]
    congr 1
    refine propext (exists_congr fun x => exists_congr fun y => ?_)
    refine and_congr_right fun hx => and_congr_right fun hy => ?_
    rw [heq x y hx hy]

/-- VF is 1 afterwards where it was, or where a lit pixel was erased. -/
theorem Drawn.flag_eq_one {bits : Nat → Nat → Bool} {s t : State} (h : Drawn bits s t) :
    t.reg vf = 1 ↔ s.reg vf = 1 ∨ ∃ x y, x < 64 ∧ y < 32 ∧ getPixel s.mem x y = true ∧ bits x y = true := by
  rw [h.flag]
  split
  case isTrue hlit => exact ⟨fun _ => .inr hlit, fun _ => rfl⟩
  case isFalse hnone => exact (or_iff_left hnone).symm

/-- A sprite in memory that does not lie under itself XORs its bits, as memory holds them before, onto the screen. -/
theorem drawRows_drawn {n a x0 y0 : Nat} {s t : State} (hn : n ≤ 32) (hmem : n = 0 ∨ a + n ≤ 0x1000)
    (hapart : ∀ row, row < n → ¬ underSprite s.cfg.edge n x0 y0 (a + row))
    (ht : drawRows a x0 y0 n s = .done () t) : Drawn (spriteBit s.cfg.edge s.mem a n x0 y0) s t := by
  induction n generalizing t with
  | zero =>
    cases ht
    refine .nothing fun x y _ _ => ?_
    rw [Bool.eq_false_iff, ne_eq, spriteBit_eq_true]
    rintro ⟨-, row, -, -, -, hrow, -⟩
    exact Nat.not_lt_zero row hrow
  | succ n ih =>
    obtain ⟨u, hu, hframe, hkept⟩ := exists_drawRows_done x0 y0 s (n := n) (a := a) (.inr (by omega))
    have hbefore := ih (by omega) (.inr (by omega))
      (fun row hrow => mt (underSprite_mono n.le_succ) (hapart row (by omega))) hu
    cases ht.symm.trans (drawRows_succ_of_done hu (by omega))
    have hrow := drawRow_drawn (a + n) x0 (y0 + n) u
    have hbyte : Memory.read u.mem (a + n) = Memory.read s.mem (a + n) :=
      hkept _ (mt (underSprite_mono n.le_succ) (hapart n n.lt_succ_self))
    have hbits : spriteBit u.cfg.edge u.mem (a + n) 1 x0 (y0 + n) =
        spriteBit s.cfg.edge s.mem (a + n) 1 x0 (y0 + n) := by
      rw [hframe.cfg_eq]
      refine spriteBit_congr fun row hrow => ?_
      obtain rfl : row = 0 := by omega
      exact hbyte
    rw [hbits] at hrow
    refine (hbefore.trans hrow fun x y _ hy => spriteBit_row_eq_false (by omega) hy).congr fun x y _ hy => ?_
    exact (spriteBit_succ (by omega) hy).symm

/-- Two memories that show the same screen have the same framebuffer bytes. -/
theorem read_eq_of_getPixel_eq {m m' : Memory} (h : ∀ x y, x < 64 → y < 32 → getPixel m x y = getPixel m' x y) {a : Nat}
    (hlo : fbBase ≤ a) (hhi : a < fbBase + fbSize) : Memory.read m a = Memory.read m' a := by
  apply BitVec.eq_of_getLsbD_eq
  intro j hj
  simp only [fbBase, fbSize] at hlo hhi
  have hpixel := h (8 * ((a - 0xF00) % 8) + (7 - j)) ((a - 0xF00) / 8) (by omega) (by omega)
  have haddr : fbAddr (8 * ((a - 0xF00) % 8) + (7 - j)) ((a - 0xF00) / 8) = a := by
    simp only [fbAddr, fbBase]
    omega
  rw [getPixel_eq, getPixel_eq, haddr] at hpixel
  rwa [show 7 - (8 * ((a - 0xF00) % 8) + (7 - j)) % 8 = j by omega] at hpixel

/-- Flipping the same pixels twice restores memory: the framebuffer pixel by pixel, and the rest is kept by both. -/
theorem Drawn.sameMemory_of_twice {bits : Nat → Nat → Bool} {s t t' u : State} (h : Drawn bits s t)
    (h' : Drawn bits t' u) (hmem : t'.mem = t.mem) : SameMemory s u := by
  intro a
  by_cases ha : fbBase ≤ a ∧ a < fbBase + fbSize
  · refine read_eq_of_getPixel_eq (fun x y hx hy => ?_) ha.1 ha.2
    rw [h'.pixel x y hx hy, hmem, h.pixel x y hx hy, Bool.xor_assoc, Bool.xor_self, Bool.xor_false]
  · rw [h'.frame.outside a (by omega), hmem, h.frame.outside a (by omega)]

/-- A pixel that is lit after it was drawn, and is drawn again, is one that the first draw lit. -/
theorem Drawn.lit_and_bit_iff {bits : Nat → Nat → Bool} {s t : State} (h : Drawn bits s t) {x y : Nat} (hx : x < 64)
    (hy : y < 32) :
    (getPixel t.mem x y = true ∧ bits x y = true) ↔ (getPixel s.mem x y = false ∧ getPixel t.mem x y = true) := by
  rw [h.pixel x y hx hy]
  cases getPixel s.mem x y <;> cases bits x y <;> decide

/-! ### A sprite that runs beyond memory -/

theorem drawRows_add (k m a x0 y0 : Nat) (s : State) :
    drawRows a x0 y0 (k + m) s =
      (drawRows a x0 y0 k s).andThen fun _ t => drawRows (a + k) x0 (y0 + k) m t := by
  induction k generalizing a y0 s with
  | zero => rw [Nat.zero_add]; rfl
  | succ k ih =>
    rw [Nat.succ_add, drawRows]
    by_cases ha : a ≤ 0xFFF
    · rw [memRead_inside ha, andThen_done, ih, drawRows, memRead_inside ha, andThen_done]
      simp only [show a + 1 + k = a + (k + 1) by omega, show y0 + 1 + k = y0 + (k + 1) by omega]
    · rw [memRead_outside (by omega), andThen_failed, drawRows, memRead_outside (by omega), andThen_failed, andThen_failed]

/-- The rows in memory are drawn, and the first that is not fails (R118, R201). -/
theorem drawRows_beyond {n a x0 y0 : Nat} {s t : State} (hn : n ≠ 0) (hbeyond : 0x1000 < a + n)
    (ht : drawRows a x0 y0 (0x1000 - a) s = .done () t) :
    drawRows a x0 y0 n s = .failed (.outOfBounds (max a 0x1000)) t := by
  obtain ⟨m, rfl⟩ : ∃ m, n = 0x1000 - a + (m + 1) := ⟨n - (0x1000 - a) - 1, by omega⟩
  rw [drawRows_add, ht, andThen_done, drawRows, memRead_outside (by omega), andThen_failed,
    show a + (0x1000 - a) = max a 0x1000 by omega]

/-! ### DXYN -/

theorem spriteInMemory_toNat {s : State} {n : Nibble} (h : SpriteInMemory s n) :
    n.toNat = 0 ∨ indexBase s + n.toNat ≤ 0x1000 := by
  rcases h with rfl | h
  · exact .inl rfl
  · exact .inr h

/-- DXYN whose rows are all drawn (R201). -/
theorem exec_drw_of_done {s t : State} {x y : RegIdx} {n : Nibble}
    (h : drawRows s.i.toNat (s.reg x).toNat (s.reg y).toNat n.toNat (s.setFlag false) = .done () t) :
    exec (.drw x y n) s = complete true t := by
  rw [exec, execDrw, indexBase, h]
  rfl

/-- VF is cleared before anything is drawn, so afterwards it tells of this sprite only. -/
theorem flag_eq_one_of_cleared {bits : Nat → Nat → Bool} {s t : State} (h : Drawn bits (s.setFlag false) t) :
    t.reg vf = 1 ↔ ∃ x y, x < 64 ∧ y < 32 ∧ getPixel s.mem x y = true ∧ bits x y = true := by
  rw [h.flag_eq_one, setFlag_reg_vf]
  exact or_iff_right (by decide)

/-- DXYN for a sprite in memory that does not lie under itself: what is drawn, and the sprite's bytes kept (R201, R202). -/
theorem exec_drw_apart {s : State} {x y : RegIdx} {n : Nibble} (hmem : SpriteInMemory s n) (hapart : SpriteApart s x y n) :
    ∃ t, exec (.drw x y n) s = complete true t ∧
      Drawn (spriteBit s.cfg.edge s.mem s.i.toNat n.toNat (s.reg x).toNat (s.reg y).toNat) (s.setFlag false) t ∧
      ∀ row, row < n.toNat → Memory.read t.mem (s.i.toNat + row) = Memory.read s.mem (s.i.toNat + row) := by
  have hn := n.isLt
  obtain ⟨t, ht, -, hkept⟩ :=
    exists_drawRows_done (s.reg x).toNat (s.reg y).toNat (s.setFlag false) (spriteInMemory_toNat hmem)
  exact ⟨t, exec_drw_of_done ht, drawRows_drawn (s := s.setFlag false) (by omega) (spriteInMemory_toNat hmem) hapart ht,
    fun row hrow => hkept _ (hapart row hrow)⟩

theorem spriteApart_congr {s t : State} {x y : RegIdx} {n : Nibble} (hcfg : t.cfg = s.cfg) (hi : t.i = s.i)
    (hx : t.reg x = s.reg x) (hy : t.reg y = s.reg y) (h : SpriteApart s x y n) : SpriteApart t x y n := by
  unfold SpriteApart
  rwa [hcfg, hi, hx, hy]

end Sys2Proof.Laws
end

section
/-! PROOFS. The display (spec/44_display.md, spec/20_memory.md R61): pixels and sprites. -/

namespace Sys2Proof.Proofs

open Sys2Proof.Machine Sys2Proof.Laws

/-- Settles O42: a pixel is one bit of one framebuffer byte. -/
theorem togglingAPixelFlipsThatPixelOnly : Obligations.TogglingAPixelFlipsThatPixelOnly := by
  intro m x y hx hy
  obtain ⟨-, hinside⟩ := fbAddr_inside hx hy
  refine ⟨getPixel_eq m x y, rfl, Nat.le_of_lt_succ hinside, fun x' y' hx' _ => getPixel_togglePixel m hx hx', fun a ha => ?_⟩
  rw [togglePixel, read_write, if_neg ha]

/-- Settles O38: VF is cleared, and then the rows change VF to 1 and bytes under the sprite only. -/
theorem drawChangesVfAndBytesUnderTheSprite : Obligations.DrawChangesVfAndBytesUnderTheSprite := by
  intro s x y n hmem
  obtain ⟨t, ht, hframe, hkept⟩ :=
    exists_drawRows_done (s.reg x).toNat (s.reg y).toNat (s.setFlag false) (spriteInMemory_toNat hmem)
  have heffect : Effect (.drw x y n) s t := .of_drawFrame hframe
  obtain ⟨hi, hpc, hspecials, hports, -⟩ := hframe.fields
  refine completes_of_exec (exec_drw_of_done ht) hports
    ⟨heffect.flag trivial, fun hn => ?_, hkept, heffect.regs, hi, hpc, hspecials⟩
  subst hn
  cases ht
  exact ⟨setFlag_reg_vf s false, fun _ => rfl⟩

/-- Settles O39: the rows of a sprite apart from itself are disjoint sets of pixels, each of which is flipped; one row more
is that row drawn on what the rows before it left. -/
theorem drawXorsTheSpriteOntoTheScreen : Obligations.DrawXorsTheSpriteOntoTheScreen := by
  refine ⟨fun s x y n hmem hapart => ?_, fun s x y n hn hmem => ?_⟩
  · obtain ⟨t, hexec, hdrawn, -⟩ := exec_drw_apart hmem hapart
    have hflag := flag_eq_one_of_cleared hdrawn
    exact ⟨_, hexec, hdrawn.pixel, hflag, (exec_effect hexec).flag trivial⟩
  · obtain ⟨t, ht, hframe, -⟩ :=
      exists_drawRows_done (s.reg x).toNat (s.reg y).toNat (s.setFlag false) (n := n.toNat) (a := s.i.toNat) (.inr (by omega))
    have hsucc : (n + 1).toNat = n.toNat + 1 := by
      bv_omega
    have hu := drawRows_succ_of_done ht (by omega)
    rw [← hsucc] at hu
    have hdrawn := drawRow_drawn (s.i.toNat + n.toNat) (s.reg x).toNat ((s.reg y).toNat + n.toNat) t
    rw [show t.cfg = s.cfg from hframe.cfg_eq] at hdrawn
    exact ⟨_, _, exec_drw_of_done ht, exec_drw_of_done hu, hdrawn.pixel, hdrawn.flag_eq_one⟩

/-- Settles O40: the rows before the first byte beyond memory are those of the shorter sprite. -/
theorem drawBeyondMemoryRaises : Obligations.DrawBeyondMemoryRaises := by
  intro s x y n hn hbeyond
  have hrows : (BitVec.ofNat 4 (0x1000 - s.i.toNat)).toNat = 0x1000 - s.i.toNat := by
    have := n.isLt
    rw [BitVec.toNat_ofNat]
    omega
  obtain ⟨t, ht, hframe, -⟩ := exists_drawRows_done (s.reg x).toNat (s.reg y).toNat (s.setFlag false)
    (n := 0x1000 - s.i.toNat) (a := s.i.toNat) (by omega)
  have hexec : exec (.drw x y n) s = raise (.outOfBounds (max s.i.toNat 0x1000)) t := by
    rw [exec, execDrw, indexBase, drawRows_beyond (mt (fun h => BitVec.eq_of_toNat_eq h) hn) hbeyond ht]
    rfl
  rw [← hrows] at ht
  obtain ⟨-, -, -, hports, -⟩ := hframe.fields
  exact raises_of_exec hexec hports ⟨_, exec_drw_of_done ht, rfl, sameMachine_setResult t _⟩

/-- Settles O41: the second draw flips the same pixels as the first, since it reads the same coordinates and bytes; memory
outside the framebuffer is kept by both. -/
theorem drawingTwiceRestoresTheScreen : Obligations.DrawingTwiceRestoresTheScreen := by
  intro s x y n pc hx hy hmem hapart
  obtain ⟨t, hexec, hdrawn, hbytes⟩ := exec_drw_apart hmem hapart
  have hregX : t.reg x = s.reg x := (hdrawn.frame.regs x hx).trans (setFlag_reg_of_ne s false hx)
  have hregY : t.reg y = s.reg y := (hdrawn.frame.regs y hy).trans (setFlag_reg_of_ne s false hy)
  obtain ⟨hi, -⟩ := hdrawn.frame.fields
  have hcfg : t.cfg = s.cfg := hdrawn.frame.cfg_eq
  obtain ⟨u, hexec', hdrawn', -⟩ :=
    exec_drw_apart (s := (t.setResult (.sideEffects true t.waitValid)).setPc pc)
      (hmem.imp_right fun h => (congrArg BitVec.toNat hi).symm ▸ h) (spriteApart_congr hcfg hi hregX hregY hapart)
  have hflag := flag_eq_one_of_cleared hdrawn'
  simp only [setPc_cfg, setPc_i, setPc_reg, setPc_mem, setResult_cfg, setResult_i, setResult_reg, setResult_mem]
    at hdrawn' hflag
  rw [hi, hcfg, hregX, hregY, setFlag_i, spriteBit_congr hbytes] at hdrawn' hflag
  have hsame := hdrawn.sameMemory_of_twice hdrawn' rfl
  refine ⟨_, _, hexec, hexec', hsame, hflag.trans ?_, (exec_effect hexec').flag trivial⟩
  refine exists_congr fun px => exists_congr fun py => and_congr_right fun hpx => and_congr_right fun hpy => ?_
  exact hdrawn.lit_and_bit_iff hpx hpy

end Sys2Proof.Proofs
end

section
/-! SUPPORT. Initialisation (spec/70_reset_and_hazards.md R280 to R282): an image that fits and one that does not. -/

namespace Sys2Proof.Laws

open Sys2Proof.Machine

/-- The memory that initialisation leaves: the image over the font over the background. -/
def loadedMemory (p : ResetParams) (rom : List Byte) : Memory :=
  Memory.writeAll (Memory.writeAll p.resetMem 0 p.cfg.font.toList) progBase rom

/-- ROM_MAX is 3232 (R5). -/
theorem romFits_iff {rom : List Byte} : romFits rom = true ↔ rom.length ≤ 3232 := decide_eq_true_iff

theorem loadRom_of_too_large {rom : List Byte} (h : 3232 < rom.length) (s : State) :
    loadRom rom s = .fault .romTooLarge := by
  rw [loadRom, if_neg (mt romFits_iff.mp (by omega))]

theorem initialise_of_fits {rom : List Byte} (h : rom.length ≤ 3232) (p : ResetParams) :
    initialise p rom = .next ((initialRegisters p).setMem (loadedMemory p rom)) := by
  rw [initialise, loadRom, if_pos (romFits_iff.mpr h)]
  rfl

theorem font_length (p : ResetParams) : p.cfg.font.toList.length = 80 := Vector.length_toList

theorem read_loadedMemory_font (p : ResetParams) (rom : List Byte) {a : Nat} (h : a < 80) :
    Memory.read (loadedMemory p rom) a = p.cfg.font[a] := by
  have hfont : p.cfg.font.toList[a]? = some p.cfg.font[a] := by
    rw [List.getElem?_eq_getElem (by rwa [font_length]), Vector.getElem_toList]
  rw [loadedMemory, read_writeAll_outside (by rw [progBase]; omega)]
  simpa using read_writeAll_of_getElem? hfont p.resetMem 0

theorem read_loadedMemory_rom (p : ResetParams) {rom : List Byte} {j : Nat} (h : j < rom.length) :
    some (Memory.read (loadedMemory p rom) (0x200 + j)) = rom[j]? := by
  have hrom := List.getElem?_eq_getElem h
  rw [hrom, loadedMemory]
  exact congrArg some (read_writeAll_of_getElem? hrom _ progBase)

theorem read_loadedMemory_background (p : ResetParams) {rom : List Byte} {a : Nat} (hfont : 80 ≤ a)
    (hrom : a < 0x200 ∨ 0x200 + rom.length ≤ a) : Memory.read (loadedMemory p rom) a = Memory.read p.resetMem a := by
  rw [loadedMemory, read_writeAll_outside (by rw [progBase]; omega), read_writeAll_outside (by rw [font_length]; omega)]

theorem wf_loadedMemory {p : ResetParams} {rom : List Byte} (hmem : Memory.wf p.resetMem = true)
    (h : rom.length ≤ 3232) : Memory.wf (loadedMemory p rom) = true := by
  refine wf_writeAll rom (wf_writeAll _ hmem ?_) ?_
  · rw [font_length, memSize]
    decide
  · rw [progBase, memSize]
    omega

/-- With no cell listed, the first 80 bytes of memory are the default font (R62; log 3, 4). -/
theorem read_nil_eq_defaultFont {a : Nat} (h : a < 80) : Memory.read [] a = defaultFont[a] :=
  List.getD_eq_getElem _ _ h

end Sys2Proof.Laws
end

section
/-! PROOFS. Keys (spec/45_keys_timers.md), the outputs (spec/20_memory.md R66, spec/60_exceptions.md R256), and initialisation
(spec/70_reset_and_hazards.md). -/

namespace Sys2Proof.Proofs

open Sys2Proof.Machine Sys2Proof.Laws

/-- Settles O44: each instruction is `skipIf` on the selected key. -/
theorem keySkipsFollowTheSelectedKey : Obligations.KeySkipsFollowTheSelectedKey := by
  intro s x
  exact ⟨skipsWhen_of_exec rfl Iff.rfl, skipsWhen_of_exec rfl (.of_eq (Bool.not_eq_true' _))⟩

/-- Settles O45: `firstKey` is the least key down, if there is one. -/
theorem keyWaitTakesAKeyOrWaits : Obligations.KeyWaitTakesAKeyOrWaits := by
  intro s x
  refine ⟨fun k hk hdown hleast => ?_, fun hnone => ?_⟩
  · have hexec : exec (.ldVxK x) s = complete false (s.setReg x (BitVec.ofNat 8 k)) := by
      rw [exec, execLdVxK, firstKey_eq_some.mpr ⟨hk, hdown, hleast⟩]
    exact writesOnlyVx_of_exec hexec
  · have hexec : exec (.ldVxK x) s = complete false (s.setWait true x) := by
      rw [exec, execLdVxK, firstKey_eq_none.mpr hnone]
    exact completes_of_exec hexec (samePorts_refl s)
      ⟨rfl, rfl, fun _ => rfl, rfl, rfl, rfl, rfl, rfl, fun _ => rfl⟩

/-- Settles O43: the view is a map over the 256 offsets from 0xF00. -/
theorem outputsShowFramebufferAndSound : Obligations.OutputsShowFramebufferAndSound := by
  intro s
  refine ⟨?_, fun j hj => ?_, ?_⟩
  · rw [framebufferBytes, List.length_map, List.length_range]
    rfl
  · rw [framebufferBytes, List.getElem?_map, List.getElem?_range (show j < fbSize from hj)]
    rfl
  · rw [soundActive, decide_eq_true_iff]
    exact not_congr BitVec.toNat_inj.symm

/-- Settles O47: the font is what unlisted memory reads as. -/
theorem resetHasTheValuesTheSpecGives : Obligations.ResetHasTheValuesTheSpecGives :=
  ⟨rfl, rfl, rfl, rfl, rfl, rfl, fun _ => read_nil_eq_defaultFont⟩

/-- Settles O48: the image, the font and the background each from their own part of memory. -/
theorem initialiseLoadsFontAndProgram : Obligations.InitialiseLoadsFontAndProgram := by
  intro p rom h
  exact ⟨_, initialise_of_fits h p, rfl, rfl, rfl, rfl, rfl, rfl, rfl, rfl, fun _ => read_loadedMemory_font p rom,
    fun _ => read_loadedMemory_rom p, fun _ => read_loadedMemory_background p⟩

/-- Settles O49: `initialise` ends with `loadRom`, which tests the length first. -/
theorem tooLargeAProgramIsRefused : Obligations.TooLargeAProgramIsRefused := by
  intro p s rom h
  exact ⟨loadRom_of_too_large h _, loadRom_of_too_large h s⟩

/-- Settles O50: the loaders write within memory, SP is 0xEA0 and no key is awaited. -/
theorem resetMeetsTheInvariant : Obligations.ResetMeetsTheInvariant := by
  have hlegal : spLegal State.reset := ⟨by decide, by decide, by decide⟩
  refine ⟨⟨wf_nil, hlegal, nofun⟩, fun p rom hmem h => ?_⟩
  exact ⟨_, initialise_of_fits h p, wf_loadedMemory hmem h, hlegal, nofun⟩

end Sys2Proof.Proofs
end
